-- ==== Sys2Proof/Config.lean ====
section
/-! DEFINITION. What the design fixes for an instance (spec/00_scope.md R6, R11; spec/10_state.md R30, R33):
the two variants, the widths that shape the state, the longest key, and the one free value of the spec.
The tuned constants (multipliers, masks, tempering) stand in Machine/Constants.lean. -/

namespace Sys2Proof

/-- The two variants of the block (R1, R3): `mersenne_twister_32` and `mersenne_twister_64`. -/
inductive Variant where
  | mt32
  | mt64
  deriving DecidableEq, Repr

/-- W, the word width in bits (R6). -/
abbrev Variant.w : Variant → Nat
  | .mt32 => 32
  | .mt64 => 64

/-- N, the length of the state vector in words (R6, R31). -/
abbrev Variant.n : Variant → Nat
  | .mt32 => 624
  | .mt64 => 312

/-- CURSOR_BITS, the width of the cursor register (R11, R33). -/
abbrev Variant.cursorBits : Variant → Nat
  | .mt32 => 10
  | .mt64 => 9

/-- SENTINEL, the cursor value of an instance that was never seeded: N+1 (R6, R32). -/
abbrev Variant.sentinel (v : Variant) : Nat := v.n + 1

/-- KEY_LEN_MAX, the most key words one SEED_ARRAY carries (R11): 2^24 - 1. -/
abbrev Config.keyLenMax : Nat := 2 ^ 24 - 1

/-- FREE VALUE (log entry 1): word `i` of the state vector after reset number `draw` of the instance that draws from
`source`. R37 leaves these words unspecified and asks for a free draw, not for zero, so the constant has no body. The
spec relates neither the words of two resets nor those of two instances (R37, R169), so both numbers are arguments.
DESIGN CHOICE of this form: the same four arguments give the same word, so one instance's words after one reset are
the same in every run of the model, and two instances share words only where a state gives both the same `source` and
`draw`, which no system built by `State.system` reaches. -/
opaque Config.resetWord (v : Variant) (source draw i : Nat) : BitVec v.w

end Sys2Proof
end

