-- ==== Sys2Proof/Word.lean ====
section
/-! DEFINITION. The words of the machine: W-bit words of a variant and 32-bit command words (spec/20_memory.md R51,
R62). Bit 0 is the least significant bit (spec/00_scope.md R12). `+`, `-`, `*` of R13 and `^`, `&`, `|`, `>>`, `<<`
of R14 are BitVec's `+`, `-`, `*`, `^^^`, `&&&`, `|||`, `>>>`, `<<<`: modulo 2^W, zero fill, truncation to W bits. -/

namespace Sys2Proof

/-- A word of the variant's width W. -/
abbrev Word (v : Variant) : Type := BitVec v.w

/-- A command word, CMD (R70, R71). -/
abbrev CmdWord : Type := BitVec 32

/-- A byte, as the byte-fill adapter of R52 hands it out. -/
abbrev Byte : Type := BitVec 8

end Sys2Proof
end

