-- ==== Sys2Proof/Machine/Constants.lean ====
section
/-! DEFINITION. The tuned constants of the two variants, named as spec/00_scope.md R6, R7 and R8 name them. Those of
R8 (MATRIX_A and the tempering shifts and masks) are general knowledge of the spec's writer, not in its source (K1 to
K4 of spec/93_implementation_defined.md; log entry 11). No command changes any of them (R30). -/

namespace Sys2Proof

/-- M, the twist offset (R6). -/
def Variant.m : Variant → Nat
  | .mt32 => 397
  | .mt64 => 156

/-- R_UP, the width of the upper part at the twist's split point (R6). -/
def Variant.rUp : Variant → Nat
  | .mt32 => 1
  | .mt64 => 33

/-- C1, the scalar-seeding multiplier (R6). -/
def Variant.c1 : (v : Variant) → Word v
  | .mt32 => 1812433253
  | .mt64 => 6364136223846793005

/-- S, the seeding shift (R6). -/
def Variant.s : Variant → Nat
  | .mt32 => 30
  | .mt64 => 62

/-- C2, the multiplier of array seeding's pass 1 (R6). -/
def Variant.c2 : (v : Variant) → Word v
  | .mt32 => 1664525
  | .mt64 => 3935559000370003845

/-- C3, the multiplier of array seeding's pass 2 (R6). -/
def Variant.c3 : (v : Variant) → Word v
  | .mt32 => 1566083941
  | .mt64 => 2862933555777941757

/-- ARRAY_INIT_SEED (R6), a word of the variant's width. -/
def Variant.arrayInitSeed (v : Variant) : Word v := BitVec.ofNat v.w 19650218

/-- DEFAULT_SEED (R6), a word of the variant's width. -/
def Variant.defaultSeed (v : Variant) : Word v := BitVec.ofNat v.w 5489

/-- UPPER_MASK (R7). -/
def Variant.upperMask : (v : Variant) → Word v
  | .mt32 => 0x80000000
  | .mt64 => 0xFFFFFFFF80000000

/-- LOWER_MASK (R7). -/
def Variant.lowerMask : (v : Variant) → Word v
  | .mt32 => 0x7FFFFFFF
  | .mt64 => 0x000000007FFFFFFF

/-- MATRIX_A, the twist matrix constant (R8, K1, K2). -/
def Variant.matrixA : (v : Variant) → Word v
  | .mt32 => 0x9908B0DF
  | .mt64 => 0xB5026F5AA96619E9

/-- U, the shift of tempering step 1 (R8). -/
def Variant.temperU : Variant → Nat
  | .mt32 => 11
  | .mt64 => 29

/-- D, the mask of tempering step 1 (R8). -/
def Variant.temperD : (v : Variant) → Word v
  | .mt32 => 0xFFFFFFFF
  | .mt64 => 0x5555555555555555

/-- S_T, the shift of tempering step 2 (R8). -/
def Variant.temperS : Variant → Nat
  | .mt32 => 7
  | .mt64 => 17

/-- B, the mask of tempering step 2 (R8). -/
def Variant.temperB : (v : Variant) → Word v
  | .mt32 => 0x9D2C5680
  | .mt64 => 0x71D67FFFEDA60000

/-- T_T, the shift of tempering step 3 (R8). -/
def Variant.temperT : Variant → Nat
  | .mt32 => 15
  | .mt64 => 37

/-- C, the mask of tempering step 3 (R8). -/
def Variant.temperC : (v : Variant) → Word v
  | .mt32 => 0xEFC60000
  | .mt64 => 0xFFF7EEE000000000

/-- L_T, the shift of tempering step 4 (R8). -/
def Variant.temperL : Variant → Nat
  | .mt32 => 18
  | .mt64 => 43

/-- The word array seeding leaves in mt[0]: 2^(W-1) (R105). -/
def Variant.topBit : (v : Variant) → Word v
  | .mt32 => 0x80000000
  | .mt64 => 0x8000000000000000

end Sys2Proof
end

