-- ==== Sys2Proof/Machine/State.lean ====
section
/-! DEFINITION. The state: what the spec gives an instance (spec/10_state.md R30), the port and the host's side of
it (spec/30_encoding.md R70, R78; spec/60_exceptions.md R172), the system of instances (spec/00_scope.md R3), and the
state after reset (spec/70_reset_and_hazards.md R180). The block has no memory (spec/20_memory.md R50), no program
counter and no flags (spec/10_state.md R39, R40), so none stands here. -/

namespace Sys2Proof.Machine

/-- The state vector mt[0..N-1] (R31). -/
abbrev Mt (v : Variant) : Type := Vector (Word v) v.n

/-- The state of one instance: exactly the vector and the cursor (R30). -/
structure Gen (v : Variant) where
  mt : Mt v
  cursor : BitVec v.cursorBits
  deriving DecidableEq, Repr

/-- The response status (R78). The codes 2 and 3 are never produced, so they have no name here. -/
inductive Status where
  | ok
  | illegal
  deriving DecidableEq, Repr

/-- A response: STATUS and DOUT (R78). -/
structure Response (v : Variant) where
  status : Status
  dout : Word v
  deriving DecidableEq, Repr

/-- What the host of one instance can do (R172). -/
inductive HostEvent (v : Variant) where
  /-- Send a command word and its payload words, then wait for the response (R70, R172). -/
  | command (cmd : CmdWord) (payload : List (Word v))
  /-- Send a command that the reset signal cuts off before its response (R181). -/
  | cutCommand (cmd : CmdWord) (payload : List (Word v))
  /-- Raise the reset signal between commands (R180, R181). -/
  | reset
  /-- Remove the power and restore it (R171). -/
  | powerCycle
  deriving DecidableEq, Repr

/-- One instance with its port. `gen` is the spec's state; the other five fields are the model's own (R38 says that
payload and response are not state of the block). -/
structure Block (v : Variant) where
  /-- The spec's state of the instance. -/
  gen : Gen v
  /-- The payload words on DIN of the command in progress (R70, R73); empty between commands (R38). -/
  din : List (Word v)
  /-- What the instance's one host does next, oldest first (R172; log entry 4). -/
  host : List (HostEvent v)
  /-- The responses the host has received, oldest first (R78; log entry 5). -/
  received : List (Response v)
  /-- Where the instance's free words come from (R37; log entry 1). No command and no reset reads it into a result or
  changes it; it is no identifier of the block, which has none (R169). -/
  source : Nat
  /-- How many resets the instance has had since power was first applied: which draw of `Config.resetWord` filled
  the vector (R37; log entry 1). -/
  draws : Nat
  deriving DecidableEq, Repr

/-- An instance of either variant. The variant is fixed for the instance (R30). -/
structure Instance where
  variant : Variant
  block : Block variant
  deriving DecidableEq, Repr

/-- A system of any number of instances of either variant, which share nothing (R3, R169). -/
structure State where
  /-- The instances; an instance is addressed by the position of its port in this list. -/
  insts : List Instance
  /-- The port whose command is in progress. -/
  port : Nat
  /-- The order in which the ports' hosts act from now on (R56 fixes none between instances; log entry 4). -/
  schedule : List Nat
  deriving DecidableEq, Repr

/-- Why a step faults. -/
inductive Fault where
  /-- IllegalCommand (R161), raised by `step` when the accepted command word is illegal (R75). `after` is the state
  the hardware goes on from: every vector and cursor as before, the ILLEGAL response given (R161, R164, R165). Safe:
  R161 has a model fault here, so no claim is provable past it by `step`; `hwStep` goes on from `after`. -/
  | illegalCommand (word : CmdWord) (after : State)
  deriving DecidableEq, Repr

/-- Why a step has no meaning. -/
inductive Refusal where
  /-- Raised by no arm: every instruction has its meaning. Safe. -/
  | notModelled (mnemonic : String)
  /-- Raised by `step` and by a meaning when the port names no instance of the system: there is no block to run the
  command (log entry 8). Safe. -/
  | noSuchPort
  /-- Raised by a meaning when the host's payload has not exactly the words R73 gives the command: R172 assumes a
  complete payload and gives a host that breaks this no move (log entry 7). Safe. -/
  | payloadCount
  deriving DecidableEq, Repr

/-- The vector after reset number `draw`: unspecified words (R37), a free draw from the instance's own source. -/
def Mt.reset (v : Variant) (source draw : Nat) : Mt v :=
  ⟨((List.range v.n).map (Config.resetWord v source draw)).toArray, by simp⟩

/-- An instance's state after reset: never seeded, the vector unspecified (R37, R180). -/
def Gen.reset (v : Variant) (source draw : Nat) : Gen v :=
  { mt := Mt.reset v source draw, cursor := BitVec.ofNat v.cursorBits v.sentinel }

/-- An instance as it is constructed, with a host that does nothing (R169, R180). -/
def Instance.fresh (v : Variant) (source : Nat) : Instance :=
  { variant := v
    block := { gen := Gen.reset v source 0, din := [], host := [], received := [], source := source, draws := 0 } }

/-- Freshly reset instances whose free words come from sources of their own, `source` and up (log entry 1). -/
def freshInstances : Nat → List Variant → List Instance
  | _, [] => []
  | source, v :: vs => Instance.fresh v source :: freshInstances (source + 1) vs

/-- A system of freshly reset instances (R169: each starts in its reset state). -/
def State.system (vs : List Variant) : State :=
  { insts := freshInstances 0 vs, port := 0, schedule := [] }

/-- The machine right after reset: one instance of each variant (log entry 2), nothing asked of it yet. -/
def State.reset : State := State.system [.mt32, .mt64]

end Sys2Proof.Machine
end

