-- ==== Sys2Proof/Machine/Flags.lean ====
section
/-! DEFINITION. The block has no flags or condition codes (spec/10_state.md R40); what a command reports is the STATUS
of its response (spec/30_encoding.md R78), whose codes stand here. -/

namespace Sys2Proof.Machine

/-- The 2-bit code of a status (R78): 0 = OK, 1 = ILLEGAL. -/
def statusCode : Status → BitVec 2
  | .ok => 0
  | .illegal => 1

end Sys2Proof.Machine
end

