-- ==== Sys2Proof/Syntax.lean ====
section
/-! DEFINITION. The commands of the block (spec/30_encoding.md R72), one constructor per row of the opcode table. -/

namespace Sys2Proof

/-- A command, as its command word alone tells it (R74, R76). Payload words are no part of the command word: they
come on DIN (R70), and the meaning of the command takes them from there. -/
inductive Instr where
  /-- INIT (R101): go back to the never-seeded state. -/
  | init
  /-- SEED (R102): seed from the one payload word. -/
  | seed
  /-- SEED_ARRAY (R106, R107): seed from `len` payload words; `len` is the LEN field. -/
  | seedArray (len : Nat)
  /-- NEXT (R142): draw one tempered word. -/
  | next
  deriving DecidableEq, Repr

end Sys2Proof
end

