-- ==== Sys2Proof/Machine/Operands.lean ====
section
/-! DEFINITION. Operands (spec/30_encoding.md R73): the payload words of a command, taken unchanged, and the widening
of an index to a word (spec/00_scope.md R12, R13). There are no immediates, registers or addressing forms. -/

namespace Sys2Proof.Machine

/-- P, how many payload words a command takes (R73, R76). -/
def payloadWords : Instr → Nat
  | .init => 0
  | .seed => 1
  | .seedArray len => len
  | .next => 0

/-- Payload word number `j`, key[j] of R73. It is asked for only where j is below the payload's length, which
`runCommand` has checked; beyond that there is no key word, and no command reads one. -/
def keyWord {v : Variant} (payload : List (Word v)) (j : Nat) : Word v := payload.getD j 0

/-- zext_W(i): an index as a W-bit word (R13). -/
def zextW (v : Variant) (i : Nat) : Word v := BitVec.ofNat v.w i

end Sys2Proof.Machine
end

