-- ==== Sys2Proof/Machine/Ops.lean ====
section
/-! DEFINITION. The named operations of spec/00_scope.md R15 over the vector and the cursor, the loop, the current
instance and its port, the one shape of a command (spec/30_encoding.md R70, R78), the one exception
(spec/60_exceptions.md R161) and reset (spec/70_reset_and_hazards.md R180, R181). -/

namespace Sys2Proof.Machine

/-- `mt[i]` (R15). R15 asks for 0 ≤ i < N, which every rule keeps; no rule reads outside the vector. -/
def mtRead {v : Variant} (mt : Mt v) (i : Nat) : Word v := mt.getD i 0

/-- `mt[i] <- x` (R15), for i < N. -/
def mtWrite {v : Variant} (mt : Mt v) (i : Nat) (x : Word v) : Mt v := mt.setIfInBounds i x

/-- `for i in lo .. lo+count-1: body` (R15): in increasing i, every run seeing the earlier ones' writes. -/
def forRange {α : Type} (lo count : Nat) (body : Nat → α → α) (x : α) : α :=
  (List.range' lo count).foldl (fun acc i => body i acc) x

/-- The value of the cursor as an index (R32). -/
def cursorIndex {v : Variant} (g : Gen v) : Nat := g.cursor.toNat

/-- `cursor <- i` (R15), in the cursor register's CURSOR_BITS bits (R33). -/
def setCursor {v : Variant} (g : Gen v) (i : Nat) : Gen v := { g with cursor := BitVec.ofNat v.cursorBits i }

/-- The instance whose port carries the command in progress. -/
def State.current (s : State) : Option Instance := s.insts[s.port]?

/-- The state with that instance replaced; every other instance as it was (R3). -/
def State.setCurrent (s : State) (I : Instance) : State := { s with insts := s.insts.set s.port I }

/-- `respond(status, dout)` (R78): ends the command with exactly one response; its payload is kept nowhere (R38). -/
def respond {v : Variant} (b : Block v) (status : Status) (dout : Word v) : Block v :=
  { b with din := [], received := b.received ++ [{ status := status, dout := dout }] }

/-- Taking the one exception, IllegalCommand (R161): no state changes, no payload is taken, nothing is saved and
control goes nowhere (R164); the response is `respond(ILLEGAL, 0)`. There is no return from it: the block is ready for
the next command at once (R165). -/
def takeIllegalCommand {v : Variant} (b : Block v) : Block v := respond b .illegal 0

/-- A reset of one instance, or its next power-up (R171, R180, R181): the cursor at the sentinel, the vector
unspecified anew, whatever payload there was discarded, and no response. -/
def takeReset {v : Variant} (b : Block v) : Block v :=
  { b with gen := Gen.reset v b.source (b.draws + 1), din := [], draws := b.draws + 1 }

/-- A legal command that takes `count` payload words (R73): it runs on the current instance alone, changes its vector
and cursor as `effect` says of the payload and the old ones, and responds OK with the word `effect` gives (R78). -/
def runCommand (count : Nat) (effect : (v : Variant) → List (Word v) → Gen v → Gen v × Word v) (s : State) :
    Host.Outcome State Fault Refusal :=
  match s.current with
  | none => .refused .noSuchPort
  | some I =>
    if I.block.din.length = count then
      let r := effect I.variant I.block.din I.block.gen
      .next (s.setCurrent { I with block := respond { I.block with gen := r.1 } .ok r.2 })
    else .refused .payloadCount

end Sys2Proof.Machine
end

