-- ==== Sys2Proof/Machine/Seeding.lean ====
section
/-! DEFINITION. The seeding family (spec/40_seeding.md): ScalarInit, ArrayInit, and the commands INIT, SEED and
SEED_ARRAY. -/

namespace Sys2Proof.Machine

/-- `x ^ (x >> S)`, the mix both seedings apply to the word before (R100, R103, R104). -/
def seedMix {v : Variant} (x : Word v) : Word v := x ^^^ (x >>> v.s)

/-- One step of ScalarInit's loop (R100). -/
def scalarStep {v : Variant} (i : Nat) (mt : Mt v) : Mt v :=
  mtWrite mt i (v.c1 * seedMix (mtRead mt (i - 1)) + zextW v i)

/-- ScalarInit(seed) (R100), in place; the cursor is the caller's to set. -/
def scalarInit {v : Variant} (seed : Word v) (mt : Mt v) : Mt v :=
  forRange 1 (v.n - 1) scalarStep (mtWrite mt 0 seed)

/-- The vector and the two local indices of ArrayInit (R103; R38: they do not outlive the command). -/
structure Mix (v : Variant) where
  mt : Mt v
  i : Nat
  j : Nat
  deriving DecidableEq, Repr

/-- The step of i that both passes share: past N-1 it wraps to 1, after mt[N-1] is copied into mt[0] (R103, R104). -/
def advanceI {v : Variant} (x : Mix v) : Mix v :=
  if x.i + 1 ≥ v.n then { x with mt := mtWrite x.mt 0 (mtRead x.mt (v.n - 1)), i := 1 } else { x with i := x.i + 1 }

/-- The step of the key index: past the last key word it wraps to 0 (R103). -/
def advanceJ {v : Variant} (len : Nat) (x : Mix v) : Mix v :=
  if x.j + 1 ≥ len then { x with j := 0 } else { x with j := x.j + 1 }

/-- One iteration of pass 1 (R103). -/
def pass1Step {v : Variant} (key : List (Word v)) (x : Mix v) : Mix v :=
  advanceJ key.length (advanceI { x with
    mt := mtWrite x.mt x.i
      ((mtRead x.mt x.i ^^^ (seedMix (mtRead x.mt (x.i - 1)) * v.c2)) + keyWord key x.j + zextW v x.j) })

/-- One iteration of pass 2 (R104). -/
def pass2Step {v : Variant} (x : Mix v) : Mix v :=
  advanceI { x with
    mt := mtWrite x.mt x.i ((mtRead x.mt x.i ^^^ (seedMix (mtRead x.mt (x.i - 1)) * v.c3)) - zextW v x.i) }

/-- Step 1 and pass 1: max(N, L) iterations from i = 1, j = 0 (R103). -/
def arrayPass1 {v : Variant} (key : List (Word v)) (mt : Mt v) : Mix v :=
  forRange 1 (max v.n key.length) (fun _ => pass1Step key) { mt := scalarInit v.arrayInitSeed mt, i := 1, j := 0 }

/-- Pass 2: N-1 iterations from the i that pass 1 left (R104). -/
def arrayPass2 {v : Variant} (x : Mix v) : Mix v := forRange 1 (v.n - 1) (fun _ => pass2Step) x

/-- ArrayInit(key, L) for L ≥ 1, with the final assignment mt[0] <- 2^(W-1) (R103, R104, R105). -/
def arrayInit {v : Variant} (key : List (Word v)) (mt : Mt v) : Mt v :=
  mtWrite (arrayPass2 (arrayPass1 key mt)).mt 0 v.topBit

/-- The state after SEED s (R102). -/
def seedGen {v : Variant} (seed : Word v) (g : Gen v) : Gen v :=
  setCursor { g with mt := scalarInit seed g.mt } v.n

/-- The state after SEED_ARRAY: R106 for a key of one word or more; the empty key is SEED 0, since EMPTY_KEY_MODE is
SCALAR_ZERO for this hardware (R107, R11; log entry 10). -/
def seedArrayGen {v : Variant} (key : List (Word v)) (g : Gen v) : Gen v :=
  match key with
  | [] => seedGen 0 g
  | k :: ks => setCursor { g with mt := arrayInit (k :: ks) g.mt } v.n

/-- INIT (R101): the cursor to the sentinel; no word of the vector is written. -/
def execInit (s : State) : Host.Outcome State Fault Refusal :=
  runCommand 0 (fun v _ g => (setCursor g v.sentinel, 0)) s

/-- SEED (R102). -/
def execSeed (s : State) : Host.Outcome State Fault Refusal :=
  runCommand 1 (fun _ payload g => (seedGen (keyWord payload 0) g, 0)) s

/-- SEED_ARRAY (R106, R107). -/
def execSeedArray (len : Nat) (s : State) : Host.Outcome State Fault Refusal :=
  runCommand len (fun _ payload g => (seedArrayGen payload g, 0)) s

end Sys2Proof.Machine
end

