-- ==== Sys2Proof/Machine/Twist.lean ====
section
/-! DEFINITION. State regeneration (spec/41_twist.md). -/

namespace Sys2Proof.Machine

/-- y of R130: the upper part of one word over the lower part of the next. -/
def twistJoin {v : Variant} (hi lo : Word v) : Word v := (hi &&& v.upperMask) ||| (lo &&& v.lowerMask)

/-- mag of R130: MATRIX_A when y is odd. -/
def twistMag {v : Variant} (y : Word v) : Word v := if y &&& 1 = 1 then v.matrixA else 0

/-- The right side of R130's assignment: `far` is the word M positions ahead. -/
def twistWord {v : Variant} (hi lo far : Word v) : Word v :=
  far ^^^ (twistJoin hi lo >>> 1) ^^^ twistMag (twistJoin hi lo)

/-- Step k of the loop of R130, in place: it reads what every earlier step wrote (R131). -/
def twistStep {v : Variant} (k : Nat) (mt : Mt v) : Mt v :=
  mtWrite mt k (twistWord (mtRead mt k) (mtRead mt ((k + 1) % v.n)) (mtRead mt ((k + v.m) % v.n)))

/-- The loop of R130 over the whole vector. -/
def twistMt {v : Variant} (mt : Mt v) : Mt v := forRange 0 v.n twistStep mt

/-- Twist (R130): the loop, then cursor <- 0. -/
def twist {v : Variant} (g : Gen v) : Gen v := setCursor { g with mt := twistMt g.mt } 0

end Sys2Proof.Machine
end

