-- ==== Sys2Proof/Machine/Next.lean ====
section
/-! DEFINITION. Tempering and the command NEXT (spec/42_next_and_tempering.md). -/

namespace Sys2Proof.Machine

/-- Temper32 and Temper64 (R140, R141): the four steps over the variant's constants of spec/00_scope.md R8. -/
def temper {v : Variant} (y : Word v) : Word v :=
  let y := y ^^^ ((y >>> v.temperU) &&& v.temperD)
  let y := y ^^^ ((y <<< v.temperS) &&& v.temperB)
  let y := y ^^^ ((y <<< v.temperT) &&& v.temperC)
  y ^^^ (y >>> v.temperL)

/-- The lazy part of NEXT (R142): at the sentinel the default seed and Twist, at any other cursor ≥ N Twist, below N
nothing. -/
def refill {v : Variant} (g : Gen v) : Gen v :=
  if cursorIndex g ≥ v.n then
    if cursorIndex g = v.sentinel then twist { g with mt := scalarInit v.defaultSeed g.mt } else twist g
  else g

/-- The rest of NEXT (R142): take mt[cursor], advance the cursor by 1, answer the tempered word. -/
def extract {v : Variant} (g : Gen v) : Gen v × Word v :=
  (setCursor g (cursorIndex g + 1), temper (mtRead g.mt (cursorIndex g)))

/-- One draw (R142). -/
def draw {v : Variant} (g : Gen v) : Gen v × Word v := extract (refill g)

/-- NEXT (R142). -/
def execNext (s : State) : Host.Outcome State Fault Refusal :=
  runCommand 0 (fun _ _ g => draw g) s

end Sys2Proof.Machine
end

