-- ==== Sys2Proof/Machine/Dispatch.lean ====
section
/-! DEFINITION. One arm per command of the opcode table (spec/30_encoding.md R72). -/

namespace Sys2Proof.Machine

def exec (i : Instr) (s : State) : Host.Outcome State Fault Refusal :=
  match i with
  | .init => Sys2Proof.Machine.execInit s
  | .seed => Sys2Proof.Machine.execSeed s
  | .seedArray len => Sys2Proof.Machine.execSeedArray len s
  | .next => Sys2Proof.Machine.execNext s

end Sys2Proof.Machine
end

