-- ==== Sys2Proof/WellFormed.lean ====
section
/-! DEFINITION. Which commands a command word can carry: a key length must fit the 24-bit LEN field
(spec/00_scope.md R11 KEY_LEN_MAX, spec/30_encoding.md R71). -/

namespace Sys2Proof

/-- The command can be written as a command word. -/
def Instr.wf : Instr → Bool
  | .init => true
  | .seed => true
  | .seedArray len => decide (len ≤ Config.keyLenMax)
  | .next => true

/-- `Instr.wf` as a proposition. -/
abbrev Instr.WellFormed (i : Instr) : Prop := i.wf = true

end Sys2Proof
end

