-- ==== Sys2Proof/Decode.lean ====
section
/-! DEFINITION. The command word CMD32 (spec/30_encoding.md R71, R72), its legality (R75) and its encoder. Legality
is decided from the command word alone (R74). -/

namespace Sys2Proof

/-- OPC, CMD[7:0] (R71). -/
def opcField (w : CmdWord) : BitVec 8 := w.extractLsb' 0 8

/-- LEN, CMD[31:8] (R71). -/
def lenField (w : CmdWord) : BitVec 24 := w.extractLsb' 8 24

/-- The operation codes of R72. -/
def opcInit : BitVec 8 := 0x01
def opcSeed : BitVec 8 := 0x02
def opcSeedArray : BitVec 8 := 0x03
def opcNext : BitVec 8 := 0x04

/-- Why a command word is illegal: the two cases of R75. Both raise the one exception, IllegalCommand (R161). -/
inductive Illegal where
  /-- R75 case 1: OPC is none of 0x01 to 0x04. A word with a nonzero LEN beside it is still this one case (R163). -/
  | unknownOpc
  /-- R75 case 2: OPC is 0x01, 0x02 or 0x04 and LEN is not 0. -/
  | lenNotZero
  deriving DecidableEq, Repr

/-- A command whose LEN must be 0 (R71, R75 case 2). -/
def requireNoLen (w : CmdWord) (i : Instr) : Except Illegal Instr :=
  if lenField w = 0 then .ok i else .error .lenNotZero

/-- The command a word stands for, or the name of the reason why it is illegal (R72, R75). Total on all 2^32 words. -/
def decode (w : CmdWord) : Except Illegal Instr :=
  if opcField w = opcInit then requireNoLen w .init
  else if opcField w = opcSeed then requireNoLen w .seed
  else if opcField w = opcSeedArray then .ok (.seedArray (lenField w).toNat)
  else if opcField w = opcNext then requireNoLen w .next
  else .error .unknownOpc

/-- The operation code of a command (R72). -/
def Instr.opc : Instr → BitVec 8
  | .init => opcInit
  | .seed => opcSeed
  | .seedArray _ => opcSeedArray
  | .next => opcNext

/-- The LEN field of a command (R72): L for SEED_ARRAY, 0 for every other command. -/
def Instr.len : Instr → BitVec 24
  | .init => 0
  | .seed => 0
  | .seedArray len => BitVec.ofNat 24 len
  | .next => 0

/-- The command word of a command: LEN above OPC (R71, R72). -/
def encode (i : Instr) : CmdWord := i.len ++ i.opc

/-- The command word of which only the low `nbits` bits are given, the bits above them zero. The port moves whole
words, so no byte order applies (R51). -/
def tableWord (nbits w : Nat) : CmdWord := BitVec.ofNat 32 (w % 2 ^ nbits)

/-- The command read from an opcode-table word (bit 0 is the least significant bit of the command word). -/
def decodeTableWord (nbits w : Nat) : Option Instr :=
  match decode (tableWord nbits w) with
  | .ok i => some i
  | .error _ => none

end Sys2Proof
end

