-- ==== Sys2Proof/Machine/Fetch.lean ====
section
/-! DEFINITION. Accepting a command at a port (spec/30_encoding.md R70, R74; spec/20_memory.md R56) and what else the
host of a port can do (spec/60_exceptions.md R172). The block fetches nothing from a memory (spec/20_memory.md R59):
the next command is the next thing the host of the scheduled port does. -/

namespace Sys2Proof.Machine

/-- What the next step finds to do. -/
inductive Fetched where
  /-- No command: the state after a reset or a power-up, or the same vectors and cursors when no host acts (R171). -/
  | settled (after : State)
  /-- The scheduled port belongs to no instance. -/
  | noPort
  /-- The accepted command word is illegal; `after` is the state with the ILLEGAL response given (R161). -/
  | illegal (word : CmdWord) (after : State)
  /-- A legal command, with the state in which its payload stands on DIN (R70). -/
  | command (i : Instr) (ready : State)
  deriving DecidableEq, Repr

/-- What one action of the host of a port comes to. `s` is the state with that port current and `b` its block with
the action taken off the host's list. Legality is decided from the command word alone, and an illegal word takes no
payload (R74). -/
def serve {v : Variant} (s : State) (b : Block v) : HostEvent v → Fetched
  | .command cmd payload =>
    match decode cmd with
    | .error _ => .illegal cmd (s.setCurrent { variant := v, block := takeIllegalCommand b })
    | .ok i => .command i (s.setCurrent { variant := v, block := { b with din := payload } })
  | .cutCommand _ _ => .settled (s.setCurrent { variant := v, block := takeReset b })
  | .reset => .settled (s.setCurrent { variant := v, block := takeReset b })
  | .powerCycle => .settled (s.setCurrent { variant := v, block := takeReset b })

/-- The next thing to do: the scheduled port's host acts; with nothing scheduled, or with a host that has nothing to
do, the state is held (R171). -/
def fetch (s : State) : Fetched :=
  match s.schedule with
  | [] => .settled s
  | p :: rest =>
    match s.insts[p]? with
    | none => .noPort
    | some I =>
      match I.block.host with
      | [] => .settled { s with port := p, schedule := rest }
      | e :: more => serve { s with port := p, schedule := rest } { I.block with host := more } e

/-- The host of instance `I` does `e` before everything else it has planned. -/
def plan (I : Instance) (e : HostEvent I.variant) : Instance :=
  { I with block := { I.block with host := e :: I.block.host } }

/-- How many payload words of zeros complete a command word: those of R73, none for an illegal word (R74). -/
def payloadOfWord (w : CmdWord) : Nat :=
  match decode w with
  | .ok i => payloadWords i
  | .error _ => 0

/-- The state in which the current port's host sends `w` next, with a complete payload of zero words, and that port is
served next. -/
def State.sendNext (s : State) (w : CmdWord) : State :=
  match s.current with
  | none => s
  | some I =>
    { s.setCurrent (plan I (.command w (List.replicate (payloadOfWord w) 0))) with schedule := s.port :: s.schedule }

end Sys2Proof.Machine
end

