-- ==== Sys2Proof/Machine/Step.lean ====
section
/-! DEFINITION. One step: the scheduled port's host acts and the command, if it sent one, runs whole (spec/20_memory.md
R54, R56). -/

namespace Sys2Proof.Machine

/-- One step. An illegal command word is a fault of the step, as R161 has a model treat it; the fault carries the
state the hardware goes on from. -/
def step (s : State) : Host.Outcome State Fault Refusal :=
  match fetch s with
  | .settled t => .next t
  | .noPort => .refused .noSuchPort
  | .illegal w t => .fault (.illegalCommand w t)
  | .command i t => exec i t

/-- One step of the hardware itself, which goes on after an ILLEGAL response (R161, R165). -/
def hwStep (s : State) : Host.Outcome State Fault Refusal :=
  match step s with
  | .fault (.illegalCommand _ t) => .next t
  | o => o

/-- `s` with the command word of the opcode-table row placed where the next step takes its command: the host of the
current port sends it next, with payload words of zeros. -/
def State.withFetchWord (s : State) (nbits w : Nat) : State := s.sendNext (tableWord nbits w)

end Sys2Proof.Machine
end

