-- ==== Sys2Proof/Machine/Assembler.lean ====
section
/-! DEFINITION. The assembler syntax for command sequences (spec/30_encoding.md R79): from lines of text to what the
host of one instance sends. It is a tool beside the block, with no pseudo-instructions (R80). What R79 does not say of
the text (blanks between the parts, the case of hexadecimal digits, empty lines) is log entry 15. -/

namespace Sys2Proof.Machine

/-- The parts of a line. -/
inductive Token where
  /-- A mnemonic or a number. -/
  | name (cs : List Char)
  | openBrace
  | closeBrace
  | comma
  deriving DecidableEq, Repr

/-- The characters of mnemonics and numbers. -/
def isNameChar (c : Char) : Bool := c.isAlphanum || c == '_'

/-- The braces of R79, by their codes. -/
def openBraceChar : Char := Char.ofNat 123
def closeBraceChar : Char := Char.ofNat 125

/-- End the name being read, if there is one; `acc` holds its characters, last first. -/
def endName (acc : List Char) (rest : List Token) : List Token :=
  match acc with
  | [] => rest
  | c :: cs => .name (c :: cs).reverse :: rest

/-- Cut a line into tokens; `;` starts a comment that runs to the end of the line (R79). -/
def tokenize : List Char → List Char → Option (List Token)
  | [], acc => some (endName acc [])
  | c :: cs, acc =>
    if isNameChar c then tokenize cs (c :: acc)
    else if c = ';' then some (endName acc [])
    else if c = ' ' ∨ c = '\t' ∨ c = '\r' then (tokenize cs []).map (endName acc)
    else if c = openBraceChar then (tokenize cs []).map (fun ts => endName acc (.openBrace :: ts))
    else if c = closeBraceChar then (tokenize cs []).map (fun ts => endName acc (.closeBrace :: ts))
    else if c = ',' then (tokenize cs []).map (fun ts => endName acc (.comma :: ts))
    else none

/-- The value of a digit in base 16 or below. -/
def digitValue (c : Char) : Option Nat :=
  if '0' ≤ c ∧ c ≤ '9' then some (c.toNat - 48)
  else if 'a' ≤ c ∧ c ≤ 'f' then some (c.toNat - 87)
  else if 'A' ≤ c ∧ c ≤ 'F' then some (c.toNat - 55)
  else none

/-- The digits of a number in `base`, most significant first, after the value read so far. -/
def digits (base : Nat) : Nat → List Char → Option Nat
  | value, [] => some value
  | value, c :: cs =>
    match digitValue c with
    | some d => if d < base then digits base (value * base + d) cs else none
    | none => none

/-- An unsigned number, in decimal or in hexadecimal with a `0x` prefix (R79). -/
def number : List Char → Option Nat
  | [] => none
  | '0' :: 'x' :: c :: cs => digits 16 0 (c :: cs)
  | c :: cs => digits 10 0 (c :: cs)

/-- A number as a word of the instance's variant; out of the range 0 .. 2^W - 1 it is refused (R79). -/
def operand (v : Variant) (n : Nat) : Option (Word v) := if n < 2 ^ v.w then some (BitVec.ofNat v.w n) else none

/-- A number token as an operand. -/
def operandToken (v : Variant) (cs : List Char) : Option (Word v) := (number cs).bind (operand v)

/-- The rest of a key after one of its words: `, <k>` as often as there are words, then the closing brace (R79). -/
def keyTail (v : Variant) : List Token → Option (List (Word v))
  | [.closeBrace] => some []
  | .comma :: .name cs :: rest =>
    match operandToken v cs, keyTail v rest with
    | some k, some ks => some (k :: ks)
    | _, _ => none
  | _ => none

/-- A key in braces, the opening brace already read (R79). -/
def keyTokens (v : Variant) : List Token → Option (List (Word v))
  | [.closeBrace] => some []
  | .name cs :: rest =>
    match operandToken v cs, keyTail v rest with
    | some k, some ks => some (k :: ks)
    | _, _ => none
  | _ => none

/-- The host's transaction of a command: its command word, then its payload words in the order written (R79). -/
def transaction {v : Variant} (i : Instr) (payload : List (Word v)) : HostEvent v := .command (encode i) payload

/-- One line's command; a key longer than LEN can say is refused (R11, R71). A line without a command is empty. -/
def assembleTokens (v : Variant) : List Token → Option (List (HostEvent v))
  | [] => some []
  | [.name ['I', 'N', 'I', 'T']] => some [transaction .init []]
  | [.name ['N', 'E', 'X', 'T']] => some [transaction .next []]
  | [.name ['S', 'E', 'E', 'D'], .name cs] => (operandToken v cs).map (fun x => [transaction .seed [x]])
  | .name ['S', 'E', 'E', 'D', '_', 'A', 'R', 'R', 'A', 'Y'] :: .openBrace :: rest =>
    match keyTokens v rest with
    | some key =>
      if key.length ≤ Config.keyLenMax then some [transaction (.seedArray key.length) key] else none
    | none => none
  | _ => none

/-- One line of a program (R79). -/
def assembleLine (v : Variant) (line : List Char) : Option (List (HostEvent v)) :=
  (tokenize line []).bind (assembleTokens v)

/-- A program: what the host sends to its one instance, line by line (R79). -/
def assembleLines (v : Variant) : List (List Char) → Option (List (HostEvent v))
  | [] => some []
  | line :: rest =>
    match assembleLine v line, assembleLines v rest with
    | some es, some more => some (es ++ more)
    | _, _ => none

end Sys2Proof.Machine
end

