-- ==== Sys2Proof/Machine/Adapter.lean ====
section
/-! DEFINITION. The host's side of a stream of NEXT commands, outside the block: a run of draws
(spec/42_next_and_tempering.md R142) and the byte-fill adapter (spec/20_memory.md R52), which is no command of the
block (spec/30_encoding.md R80). -/

namespace Sys2Proof.Machine

/-- The results of `n` NEXT commands in a row, oldest first, and the state they leave (R142). -/
def drawMany {v : Variant} : Nat → Gen v → List (Word v) × Gen v
  | 0, g => ([], g)
  | n + 1, g =>
    let r := draw g
    let rest := drawMany n r.1
    (r.2 :: rest.1, rest.2)

/-- Bytes in a word, W/8 (R52). -/
def wordBytes (v : Variant) : Nat := v.w / 8

/-- Byte `b` of a word, byte 0 being bits [7:0] (R52). -/
def byteOf {v : Variant} (x : Word v) (b : Nat) : Byte := x.extractLsb' (8 * b) 8

/-- How many NEXT commands a fill of `n` bytes issues: ceil(n / (W/8)) (R52). -/
def fillDraws (v : Variant) (n : Nat) : Nat := (n + wordBytes v - 1) / wordBytes v

/-- The commands the adapter issues for a fill of `n` bytes (R52). -/
def fillCommands (v : Variant) (n : Nat) : List (HostEvent v) :=
  List.replicate (fillDraws v n) (.command (encode .next) [])

/-- What the adapter makes of the results: their bytes, least significant first, cut to `n` (R52). -/
def fillBytes {v : Variant} (n : Nat) (results : List (Word v)) : List Byte :=
  (results.flatMap (fun x => (List.range (wordBytes v)).map (byteOf x))).take n

/-- A fill of `n` bytes from the state `g`: the buffer and the state after it (R52). -/
def fill {v : Variant} (n : Nat) (g : Gen v) : List Byte × Gen v :=
  let r := drawMany (fillDraws v n) g
  (fillBytes n r.1, r.2)

end Sys2Proof.Machine
end

