-- ==== Sys2Proof/Safety.lean ====
section
/-! DEFINITION. The terms in which claims speak of runs: the invariant of spec/10_state.md R34, hosts that keep their
duties (spec/60_exceptions.md R172), what a host cannot tell apart (spec/10_state.md R35, R42), and runs of the
hardware's own step. -/

namespace Sys2Proof.Machine

/-- R34: between commands the cursor is one of 1 to N, or the sentinel N+1. -/
abbrev Gen.Inv {v : Variant} (g : Gen v) : Prop :=
  (1 ≤ cursorIndex g ∧ cursorIndex g ≤ v.n) ∨ cursorIndex g = v.sentinel

/-- R34 for the instance, and no payload kept between commands (R38). -/
abbrev Instance.Inv (I : Instance) : Prop := Gen.Inv I.block.gen ∧ I.block.din = []

/-- Every instance of the system keeps R34 and R38. -/
abbrev State.Inv (s : State) : Prop := ∀ I ∈ s.insts, Instance.Inv I

/-- The host's action keeps its duties of R172: a legal command word comes with exactly its payload words. A reset, a
power cycle and a command that reset cuts off may come at any time (R181). -/
def HostEvent.dutiful {v : Variant} : HostEvent v → Bool
  | .command cmd payload =>
    match decode cmd with
    | .ok i => payload.length == payloadWords i
    | .error _ => false
  | .cutCommand _ _ => true
  | .reset => true
  | .powerCycle => true

/-- Every host keeps its duties, and only ports of the system are scheduled. -/
abbrev State.Dutiful (s : State) : Prop :=
  (∀ I ∈ s.insts, ∀ e ∈ I.block.host, e.dutiful = true) ∧ ∀ p ∈ s.schedule, p < s.insts.length

/-- Two states of an instance that no command tells apart: the same cursor, and the same words unless the instance was
never seeded, when no rule reads them (R35). -/
def Gen.Indist {v : Variant} (g h : Gen v) : Prop :=
  g.cursor = h.cursor ∧ (cursorIndex g ≠ v.sentinel → g.mt = h.mt)

/-- Two instances their hosts have seen the same of, and that no command tells apart. The sources and the
numbers of the free words may differ. -/
def Instance.Indist (I J : Instance) : Prop :=
  ∃ (v : Variant) (b c : Block v), I = ⟨v, b⟩ ∧ J = ⟨v, c⟩ ∧ Gen.Indist b.gen c.gen ∧ b.din = c.din ∧
    b.host = c.host ∧ b.received = c.received

/-- Two systems that no host tells apart. -/
def State.Indist (s t : State) : Prop :=
  List.Forall₂ Instance.Indist s.insts t.insts ∧ s.port = t.port ∧ s.schedule = t.schedule

/-- `k` steps of the hardware's own step, which goes on after an ILLEGAL response (R161, R165). -/
def hwRun : Nat → State → Host.Outcome State Fault Refusal
  | 0, s => .next s
  | k + 1, s =>
    match hwStep s with
    | .next t => hwRun k t
    | .fault f => .fault f
    | .refused r => .refused r

/-- One iteration of pass 1 of array seeding, word by word (R103): the word at i becomes the new word; where i wraps,
word 0 becomes a copy of it; the indices advance. -/
def Pass1Iteration {v : Variant} (key : List (Word v)) (x y : Mix v) : Prop :=
  y.i = (if x.i + 1 ≥ v.n then 1 else x.i + 1) ∧
  y.j = (if x.j + 1 ≥ key.length then 0 else x.j + 1) ∧
  ∀ a < v.n, mtRead y.mt a =
    if a = x.i ∨ (a = 0 ∧ x.i + 1 ≥ v.n) then
      (mtRead x.mt x.i ^^^ ((mtRead x.mt (x.i - 1) ^^^ (mtRead x.mt (x.i - 1) >>> v.s)) * v.c2))
        + key.getD x.j 0 + BitVec.ofNat v.w x.j
    else mtRead x.mt a

/-- One iteration of pass 2, word by word (R104); no key index moves. -/
def Pass2Iteration {v : Variant} (x y : Mix v) : Prop :=
  y.i = (if x.i + 1 ≥ v.n then 1 else x.i + 1) ∧
  ∀ a < v.n, mtRead y.mt a =
    if a = x.i ∨ (a = 0 ∧ x.i + 1 ≥ v.n) then
      (mtRead x.mt x.i ^^^ ((mtRead x.mt (x.i - 1) ^^^ (mtRead x.mt (x.i - 1) >>> v.s)) * v.c3)) - BitVec.ofNat v.w x.i
    else mtRead x.mt a

/-- The words ScalarInit(seed) leaves (R100). -/
def ScalarWords {v : Variant} (seed : Word v) (mt : Mt v) : Prop :=
  mtRead mt 0 = seed ∧ ∀ i, 1 ≤ i → i < v.n →
    mtRead mt i = v.c1 * (mtRead mt (i - 1) ^^^ (mtRead mt (i - 1) >>> v.s)) + BitVec.ofNat v.w i

/-- The loop of Twist in the shape of R132: two loops that need no wrapping index, and one final step. -/
def twistSplit {v : Variant} (mt : Mt v) : Mt v :=
  let low := forRange 0 (v.n - v.m)
    (fun k x => mtWrite x k (twistWord (mtRead x k) (mtRead x (k + 1)) (mtRead x (k + v.m)))) mt
  let high := forRange (v.n - v.m) (v.m - 1)
    (fun k x => mtWrite x k (twistWord (mtRead x k) (mtRead x (k + 1)) (mtRead x (k + v.m - v.n)))) low
  mtWrite high (v.n - 1) (twistWord (mtRead high (v.n - 1)) (mtRead high 0) (mtRead high (v.m - 1)))

end Sys2Proof.Machine
end

