-- ==== Sys2Proof/Certificates/Slice0/Obligations.lean ====
section
/-! DEFINITION. What is claimed of the model, each claim from the rules of spec/ its docstring names. -/

open Sys2Proof Sys2Proof.Machine

/-! ### Parameters (spec/00_scope.md, spec/10_state.md) -/

/-- R6: the parameters the source states, per variant. -/
def Obligations.ParametersOfSource : Prop :=
  (Variant.mt32.w = 32 ∧ Variant.mt32.n = 624 ∧ Variant.mt32.m = 397 ∧ Variant.mt32.rUp = 1 ∧
    Variant.mt32.c1 = 0x6C078965 ∧ Variant.mt32.s = 30 ∧ Variant.mt32.c2 = 0x0019660D ∧ Variant.mt32.c3 = 0x5D588B65 ∧
    Variant.mt32.arrayInitSeed = 19650218 ∧ Variant.mt32.defaultSeed = 5489 ∧ Variant.mt32.sentinel = 625) ∧
  (Variant.mt64.w = 64 ∧ Variant.mt64.n = 312 ∧ Variant.mt64.m = 156 ∧ Variant.mt64.rUp = 33 ∧
    Variant.mt64.c1 = 0x5851F42D4C957F2D ∧ Variant.mt64.s = 62 ∧ Variant.mt64.c2 = 0x369DEA0F31A53F85 ∧
    Variant.mt64.c3 = 0x27BB2EE687B0B0FD ∧
    Variant.mt64.arrayInitSeed = 19650218 ∧ Variant.mt64.defaultSeed = 5489 ∧ Variant.mt64.sentinel = 313)

/-- R8: the constants that are general knowledge of the spec's writer: MATRIX_A and tempering's shifts and masks. -/
def Obligations.ParametersOfReference : Prop :=
  (Variant.mt32.matrixA = 0x9908B0DF ∧ Variant.mt32.temperU = 11 ∧ Variant.mt32.temperD = 0xFFFFFFFF ∧
    Variant.mt32.temperS = 7 ∧ Variant.mt32.temperB = 0x9D2C5680 ∧
    Variant.mt32.temperT = 15 ∧ Variant.mt32.temperC = 0xEFC60000 ∧ Variant.mt32.temperL = 18) ∧
  (Variant.mt64.matrixA = 0xB5026F5AA96619E9 ∧ Variant.mt64.temperU = 29 ∧
    Variant.mt64.temperD = 0x5555555555555555 ∧ Variant.mt64.temperS = 17 ∧ Variant.mt64.temperB = 0x71D67FFFEDA60000 ∧
    Variant.mt64.temperT = 37 ∧ Variant.mt64.temperC = 0xFFF7EEE000000000 ∧ Variant.mt64.temperL = 43)

/-- R7: UPPER_MASK has the top R_UP bits set, LOWER_MASK the others; they cover the word and do not overlap. -/
def Obligations.MasksSplitTheWord : Prop :=
  (∀ (v : Variant) (i : Nat), i < v.w →
    v.upperMask.getLsbD i = decide (v.w - v.rUp ≤ i) ∧ v.lowerMask.getLsbD i = decide (i < v.w - v.rUp)) ∧
  (∀ v : Variant, v.upperMask ||| v.lowerMask = BitVec.allOnes v.w ∧ v.upperMask &&& v.lowerMask = 0) ∧
  Variant.mt32.upperMask = 0x80000000 ∧ Variant.mt32.lowerMask = 0x7FFFFFFF ∧
  Variant.mt64.upperMask = 0xFFFFFFFF80000000 ∧ Variant.mt64.lowerMask = 0x000000007FFFFFFF

/-- R33: CURSOR_BITS is the smallest width that holds N+1, and the cursor register keeps every value up to N+1. -/
def Obligations.CursorRegisterWidth : Prop :=
  Variant.mt32.cursorBits = 10 ∧ Variant.mt64.cursorBits = 9 ∧
  (∀ v : Variant, v.n + 1 < 2 ^ v.cursorBits ∧ 2 ^ (v.cursorBits - 1) ≤ v.n + 1) ∧
  ∀ (v : Variant) (g : Gen v) (i : Nat), i ≤ v.n + 1 → cursorIndex (setCursor g i) = i

/-! ### Command words (spec/30_encoding.md) -/

/-- R72 and 95_test_vectors.md section 5: a few words, written out, and what they stand for. -/
def Obligations.CommandWordsDecode : Prop :=
  decode 0x00000001 = .ok .init ∧ decode 0x00000002 = .ok .seed ∧ decode 0x00000004 = .ok .next ∧
  decode 0x00000003 = .ok (.seedArray 0) ∧ decode 0x00000403 = .ok (.seedArray 4) ∧
  decode 0xFFFFFF03 = .ok (.seedArray 16777215) ∧
  decode 0x00000000 = .error .unknownOpc ∧ decode 0x00000005 = .error .unknownOpc ∧
  decode 0x000000FF = .error .unknownOpc ∧ decode 0x00000104 = .error .lenNotZero ∧
  decode 0x00000101 = .error .lenNotZero ∧ decode 0x00000102 = .error .lenNotZero

/-- R71, R72: no bit of an encoding is dropped: every command a command word can carry decodes back from its word. -/
def Obligations.DecodeOfEncode : Prop :=
  ∀ i : Instr, i.WellFormed → decode (encode i) = .ok i

/-- R71, R72: each command word stands for one command at most, and that command's word is this one. -/
def Obligations.EncodeOfDecode : Prop :=
  ∀ (w : CmdWord) (i : Instr), decode w = .ok i → i.WellFormed ∧ encode i = w

/-- R75: which command words are legal, and how many. -/
def Obligations.LegalWordsExactly : Prop :=
  (∀ w : CmdWord, (∃ i, decode w = .ok i) ↔
    ((w.extractLsb' 0 8 = 0x01 ∨ w.extractLsb' 0 8 = 0x02 ∨ w.extractLsb' 0 8 = 0x04) ∧ w.extractLsb' 8 24 = 0) ∨
    w.extractLsb' 0 8 = 0x03) ∧
  Set.ncard {w : CmdWord | ∃ i, decode w = .ok i} = 3 + 2 ^ 24

/-- R78: the codes of STATUS; 2 and 3 are the code of no status. -/
def Obligations.StatusCodes : Prop :=
  statusCode .ok = 0 ∧ statusCode .illegal = 1 ∧ ∀ c : Status, statusCode c ≠ 2 ∧ statusCode c ≠ 3

/-! ### Steps (spec/20_memory.md R56, spec/60_exceptions.md) -/

/-- R70, R74: when the scheduled host sends a word that decodes to `i`, the step is `exec i`, with that action taken
off the host's list, the port current, and the payload on DIN. -/
def Obligations.StepRunsDecodedCommand : Prop :=
  ∀ (s : State) (p : Nat) (rest : List Nat) (v : Variant) (b : Block v) (w : CmdWord) (payload : List (Word v))
    (more : List (HostEvent v)) (i : Instr),
    s.schedule = p :: rest → s.insts[p]? = some ⟨v, b⟩ → b.host = .command w payload :: more → decode w = .ok i →
    step s = exec i { insts := s.insts.set p ⟨v, { b with host := more, din := payload }⟩
                      port := p
                      schedule := rest }

/-- R161, R163, R164, R74: an illegal word is a fault of the step; the state the hardware goes on from has the same
vector and cursor, no payload taken, and one more response, ILLEGAL with DOUT = 0. -/
def Obligations.IllegalWordFaults : Prop :=
  ∀ (s : State) (p : Nat) (rest : List Nat) (v : Variant) (b : Block v) (w : CmdWord) (payload : List (Word v))
    (more : List (HostEvent v)) (x : Illegal),
    s.schedule = p :: rest → s.insts[p]? = some ⟨v, b⟩ → b.host = .command w payload :: more → decode w = .error x →
    let after : State :=
      { insts := s.insts.set p
          ⟨v, { b with din := [], host := more, received := b.received ++ [{ status := .illegal, dout := 0 }] }⟩
        port := p
        schedule := rest }
    step s = .fault (.illegalCommand w after) ∧ hwStep s = .next after

/-- R165: after an ILLEGAL response the block takes the next command, and a second illegal word gives a second ILLEGAL
response, the vector and the cursor still the same. -/
def Obligations.SecondIllegalWord : Prop :=
  ∀ (s : State) (p : Nat) (rest : List Nat) (v : Variant) (b : Block v) (w₁ w₂ : CmdWord)
    (payload₁ payload₂ : List (Word v)) (more : List (HostEvent v)) (x₁ x₂ : Illegal),
    s.schedule = p :: p :: rest → s.insts[p]? = some ⟨v, b⟩ →
    b.host = .command w₁ payload₁ :: .command w₂ payload₂ :: more →
    decode w₁ = .error x₁ → decode w₂ = .error x₂ →
    hwRun 2 s = .next
      { insts := s.insts.set p
          ⟨v, { b with
                din := []
                host := more
                received := b.received ++ [{ status := .illegal, dout := 0 }, { status := .illegal, dout := 0 }] }⟩
        port := p
        schedule := rest }

/-- R160: no command fails with a fault, in any state; a step faults at an illegal command word only. -/
def Obligations.OnlyIllegalWordsFault : Prop :=
  (∀ (i : Instr) (s : State) (f : Fault), exec i s ≠ .fault f) ∧
  ∀ (s : State) (f : Fault), step s = .fault f → ∃ w after x, f = .illegalCommand w after ∧ decode w = .error x

/-- R171: with nothing scheduled, or with a scheduled host that has nothing to do, every instance holds its state. -/
def Obligations.IdleHoldsState : Prop :=
  (∀ s : State, s.schedule = [] → step s = .next s) ∧
  ∀ (s : State) (p : Nat) (rest : List Nat) (I : Instance),
    s.schedule = p :: rest → s.insts[p]? = some I → I.block.host = [] →
    step s = .next { insts := s.insts, port := p, schedule := rest }

/-- Log entry 8, the model's choice: a port that no instance has stops the step by name, and so does a command on it. -/
def Obligations.UnknownPortRefused : Prop :=
  (∀ (s : State) (p : Nat) (rest : List Nat),
    s.schedule = p :: rest → s.insts[p]? = none → step s = .refused .noSuchPort) ∧
  ∀ (i : Instr) (s : State), s.current = none → exec i s = .refused .noSuchPort

/-- Log entry 7, the model's choice after R172: a payload of any other length than R73 gives the command stops the
command by name; no state, and so no response, comes of it. -/
def Obligations.WrongPayloadRefused : Prop :=
  ∀ (i : Instr) (s : State) (I : Instance),
    s.current = some I → I.block.din.length ≠ payloadWords i → exec i s = .refused .payloadCount

/-! ### Reset (spec/70_reset_and_hazards.md) -/

/-- R37, R169, R180: after reset the cursor of every instance of any system is N+1. The other clauses are the model's
choice: that DIN and the list of responses are empty then (log entries 3 and 5), and that State.reset is the system
with one instance of each variant (log entry 2). -/
def Obligations.ResetCursors : Prop :=
  (∀ (vs : List Variant) (k : Nat) (v : Variant), vs[k]? = some v →
    ∃ b : Block v, (State.system vs).insts[k]? = some ⟨v, b⟩ ∧ cursorIndex b.gen = v.n + 1 ∧
      b.din = [] ∧ b.received = []) ∧
  State.reset = State.system [.mt32, .mt64]

/-- Derived from R180, R181, R171: a reset, a power cycle, and a command that reset cuts off all leave the instance
never seeded, with words the spec leaves unspecified (here any `mt`), no payload, and no response to the command cut
off; every other instance stays. How the model writes this down is its own choice: the empty DIN (log entry 3), the
responses received earlier, which a reset keeps (log entry 5), and the source and the count of resets (log entry 1).
That each of the three is one step of one instance, a power cycle included, is deduced (log entry 16). -/
def Obligations.ResetEventResets : Prop :=
  ∀ (s : State) (p : Nat) (rest : List Nat) (v : Variant) (b : Block v) (e : HostEvent v)
    (more : List (HostEvent v)),
    s.schedule = p :: rest → s.insts[p]? = some ⟨v, b⟩ → b.host = e :: more →
    (e = .reset ∨ e = .powerCycle ∨ ∃ w payload, e = .cutCommand w payload) →
    ∃ mt : Mt v, step s = .next
      { insts := s.insts.set p
          ⟨v, { gen := { mt := mt, cursor := BitVec.ofNat v.cursorBits (v.n + 1) }
                din := []
                host := more
                received := b.received
                source := b.source
                draws := b.draws + 1 }⟩
        port := p
        schedule := rest }

/-! ### Commands (spec/40_seeding.md, spec/42_next_and_tempering.md) -/

/-- R101: INIT completes wherever it has no payload, sets the cursor to N+1, writes no word of the vector, and responds
OK with DOUT = 0. -/
def Obligations.InitResult : Prop :=
  ∀ (s : State) (v : Variant) (b : Block v), s.current = some ⟨v, b⟩ → b.din = [] →
    exec .init s = .next (s.setCurrent
      ⟨v, { b with
            gen := { mt := b.gen.mt, cursor := BitVec.ofNat v.cursorBits (v.n + 1) }
            received := b.received ++ [{ status := .ok, dout := 0 }] }⟩)

/-- R100, R102: SEED completes for every seed; the words follow ScalarInit's recurrence, the cursor is N, the response
OK with DOUT = 0. -/
def Obligations.SeedResult : Prop :=
  ∀ (s : State) (v : Variant) (b : Block v) (seed : Word v), s.current = some ⟨v, b⟩ → b.din = [seed] →
    ∃ mt : Mt v, ScalarWords seed mt ∧
      exec .seed s = .next (s.setCurrent
        ⟨v, { b with
              gen := { mt := mt, cursor := BitVec.ofNat v.cursorBits v.n }
              din := []
              received := b.received ++ [{ status := .ok, dout := 0 }] }⟩)

/-- R103, R104, R105, R106: SEED_ARRAY completes for every key of one word or more; the vector comes from ScalarInit's
by max(N, L) iterations of pass 1, N-1 of pass 2 and the final assignment. -/
def Obligations.SeedArrayResult : Prop :=
  ∀ (s : State) (v : Variant) (b : Block v) (key : List (Word v)), s.current = some ⟨v, b⟩ → b.din = key →
    key ≠ [] →
    ∃ (p q : Nat → Mix v) (mt : Mt v),
      ScalarWords v.arrayInitSeed (p 0).mt ∧ (p 0).i = 1 ∧ (p 0).j = 0 ∧
      (∀ k < max v.n key.length, Pass1Iteration key (p k) (p (k + 1))) ∧
      q 0 = p (max v.n key.length) ∧
      (∀ k < v.n - 1, Pass2Iteration (q k) (q (k + 1))) ∧
      mtRead mt 0 = BitVec.ofNat v.w (2 ^ (v.w - 1)) ∧
      (∀ a, 1 ≤ a → a < v.n → mtRead mt a = mtRead (q (v.n - 1)).mt a) ∧
      exec (.seedArray key.length) s = .next (s.setCurrent
        ⟨v, { b with
              gen := { mt := mt, cursor := BitVec.ofNat v.cursorBits v.n }
              din := []
              received := b.received ++ [{ status := .ok, dout := 0 }] }⟩)

/-- R107: SEED_ARRAY with the empty key completes and does exactly what SEED 0 does. -/
def Obligations.EmptyKeyResult : Prop :=
  ∀ (s : State) (v : Variant) (b : Block v), s.current = some ⟨v, b⟩ → b.din = [] →
    ∃ mt : Mt v, ScalarWords 0 mt ∧
      exec (.seedArray 0) s = .next (s.setCurrent
        ⟨v, { b with
              gen := { mt := mt, cursor := BitVec.ofNat v.cursorBits v.n }
              received := b.received ++ [{ status := .ok, dout := 0 }] }⟩) ∧
      exec .seed (s.setCurrent ⟨v, { b with din := [0] }⟩) = exec (.seedArray 0) s

/-- R142: NEXT completes in every state. Below N it takes mt[cursor]; at N or above it twists first, and takes word 0
of the new vector; at the sentinel it seeds with DEFAULT_SEED = 5489 before that. -/
def Obligations.NextResult : Prop :=
  ∀ (s : State) (v : Variant) (b : Block v), s.current = some ⟨v, b⟩ → b.din = [] →
    if b.gen.cursor.toNat < v.n then
      exec .next s = .next (s.setCurrent
        ⟨v, { b with
              gen := { mt := b.gen.mt, cursor := b.gen.cursor + 1 }
              received := b.received ++ [{ status := .ok, dout := temper (mtRead b.gen.mt b.gen.cursor.toNat) }] }⟩)
    else
      ∃ old : Mt v,
        (if b.gen.cursor.toNat = v.n + 1 then ScalarWords (5489 : Word v) old else old = b.gen.mt) ∧
        exec .next s = .next (s.setCurrent
          ⟨v, { b with
                gen := { mt := twistMt old, cursor := 1 }
                received := b.received ++ [{ status := .ok, dout := temper (mtRead (twistMt old) 0) }] }⟩)

/-- R143: at the sentinel NEXT leaves the vector and the cursor, and answers the word, that SEED 5489 and then NEXT
leave and answer. -/
def Obligations.LazyDefaultSeed : Prop :=
  ∀ (s : State) (v : Variant) (b : Block v), s.current = some ⟨v, b⟩ → b.din = [] →
    b.gen.cursor.toNat = v.n + 1 →
    ∃ (g : Gen v) (out : Word v) (t : State),
      exec .next s = .next (s.setCurrent
        ⟨v, { b with gen := g, received := b.received ++ [{ status := .ok, dout := out }] }⟩) ∧
      exec .seed (s.setCurrent ⟨v, { b with din := [5489] }⟩) = .next t ∧
      exec .next t = .next (s.setCurrent
        ⟨v, { b with
              gen := g
              received := b.received ++ [{ status := .ok, dout := 0 }, { status := .ok, dout := out }] }⟩)

/-- R3, R54, R78: what every command leaves alone and the one response it gives. The port, the schedule, the number
of instances and every other instance stay; of its own instance the variant, the host's plans, the source of free words
and the count of resets stay, the payload is gone, and one response is added: OK, with DOUT = 0 unless the command is
NEXT. -/
def Obligations.CommandFrame : Prop :=
  ∀ (i : Instr) (s t : State), exec i s = .next t →
    t.port = s.port ∧ t.schedule = s.schedule ∧ t.insts.length = s.insts.length ∧
    (∀ q, q ≠ s.port → t.insts[q]? = s.insts[q]?) ∧
    ∃ (v : Variant) (b c : Block v) (out : Word v),
      s.current = some ⟨v, b⟩ ∧ t.current = some ⟨v, c⟩ ∧ c.host = b.host ∧ c.source = b.source ∧ c.draws = b.draws ∧
      c.din = [] ∧
      c.received = b.received ++ [{ status := .ok, dout := out }] ∧ (i ≠ .next → out = 0)

/-- R101, R142: INIT, and NEXT below N, leave every word of the vector as it was. -/
def Obligations.VectorFrame : Prop :=
  ∀ (i : Instr) (s t : State) (v : Variant) (b c : Block v),
    s.current = some ⟨v, b⟩ → t.current = some ⟨v, c⟩ → exec i s = .next t →
    i = .init ∨ (i = .next ∧ b.gen.cursor.toNat < v.n) → c.gen.mt = b.gen.mt

/-- R36: after SEED_ARRAY with L ≥ 1 word 0 is 2^(W-1), whose bits below the top one are 0 by the spec's own reading
(R105, C1; log entry 12). R107: after the empty key word 0 is 0, by the spec's EMPTY_KEY_MODE (log entry 10). -/
def Obligations.SeedArrayTopWord : Prop :=
  ∀ (s t : State) (v : Variant) (b c : Block v) (key : List (Word v)),
    s.current = some ⟨v, b⟩ → b.din = key → exec (.seedArray key.length) s = .next t → t.current = some ⟨v, c⟩ →
    mtRead c.gen.mt 0 = if key = [] then 0 else BitVec.ofNat v.w (2 ^ (v.w - 1))

/-- R108: what a seeding command leaves depends on its payload alone, and so do all the draws after it. -/
def Obligations.SeedingIsDeterminedByPayload : Prop :=
  ∀ (i : Instr) (s₁ s₂ : State) (v : Variant) (b₁ b₂ : Block v),
    (i = .seed ∨ ∃ len, i = .seedArray len) →
    s₁.current = some ⟨v, b₁⟩ → s₂.current = some ⟨v, b₂⟩ → b₁.din = b₂.din → b₁.din.length = payloadWords i →
    ∃ (t₁ t₂ : State) (c₁ c₂ : Block v),
      exec i s₁ = .next t₁ ∧ exec i s₂ = .next t₂ ∧ t₁.current = some ⟨v, c₁⟩ ∧ t₂.current = some ⟨v, c₂⟩ ∧
      c₁.gen = c₂.gen ∧ ∀ n, (drawMany n c₁.gen).1 = (drawMany n c₂.gen).1

/-- R55: INIT, SEED and SEED_ARRAY are idempotent: given again with the same payload they leave the same vector and
cursor. -/
def Obligations.SeedingTwiceIsOnce : Prop :=
  ∀ (i : Instr) (s t : State) (v : Variant) (b c : Block v),
    i ≠ .next → s.current = some ⟨v, b⟩ → exec i s = .next t → t.current = some ⟨v, c⟩ →
    ∃ (u : State) (d : Block v),
      exec i (t.setCurrent ⟨v, { c with din := b.din }⟩) = .next u ∧ u.current = some ⟨v, d⟩ ∧ d.gen = c.gen

/-- R104: i after pass 1 is 1 + (K mod (N-1)) for its K = max(N, L) iterations, so 2 when L ≤ N and 1 + (L mod (N-1))
when L > N; pass 2 leaves i where pass 1 left it. -/
def Obligations.ArrayIndexBookkeeping : Prop :=
  ∀ (v : Variant) (key : List (Word v)) (mt : Mt v),
    (arrayPass1 key mt).i = 1 + max v.n key.length % (v.n - 1) ∧
    (key.length ≤ v.n → (arrayPass1 key mt).i = 2) ∧
    (v.n < key.length → (arrayPass1 key mt).i = 1 + key.length % (v.n - 1)) ∧
    (arrayPass2 (arrayPass1 key mt)).i = (arrayPass1 key mt).i

/-! ### Twist (spec/41_twist.md) -/

/-- R130, R131: the new words, each from the words the rule names: old ones where no earlier step wrote, new ones where
an earlier step did. -/
def Obligations.TwistWordByWord : Prop :=
  ∀ (v : Variant) (mt : Mt v) (k : Nat), k < v.n →
    let next := if k + 1 < v.n then mtRead mt (k + 1) else mtRead (twistMt mt) 0
    let far := if k < v.n - v.m then mtRead mt (k + v.m) else mtRead (twistMt mt) (k + v.m - v.n)
    let y := (mtRead mt k &&& v.upperMask) ||| (next &&& v.lowerMask)
    mtRead (twistMt mt) k = far ^^^ (y >>> 1) ^^^ (if y.getLsbD 0 then v.matrixA else 0)

/-- R130: Twist as a whole rewrites the vector and sets the cursor to 0. -/
def Obligations.TwistCursor : Prop :=
  ∀ (v : Variant) (g : Gen v), (twist g).mt = twistMt g.mt ∧ (twist g).cursor.toNat = 0

/-- R132: the loop with mod N is the two loops and the boundary-crossing final step. -/
def Obligations.TwistIsSplitForm : Prop :=
  (∀ (v : Variant) (mt : Mt v), twistMt mt = twistSplit mt) ∧
  (Variant.mt32.n - Variant.mt32.m - 1 = 226 ∧ Variant.mt32.n - 2 = 622 ∧
    Variant.mt64.n - Variant.mt64.m - 1 = 155 ∧ Variant.mt64.n - 2 = 310)

/-- R133: Twist reads no bit of old mt[0] but those of UPPER_MASK, bit 31 in the 32-bit variant and bits 63 to 31 in
the 64-bit variant. -/
def Obligations.TwistReadsUpperPartOfFirstWord : Prop :=
  (∀ (v : Variant) (mt : Mt v) (x : Word v), x &&& v.upperMask = mtRead mt 0 &&& v.upperMask →
    twistMt (mtWrite mt 0 x) = twistMt mt) ∧
  (∀ i < 32, Variant.mt32.upperMask.getLsbD i = decide (i = 31)) ∧
  ∀ i < 64, Variant.mt64.upperMask.getLsbD i = decide (31 ≤ i)

/-- R134: the all-zero vector is a fixed point; no seeding command leaves it; a vector whose only nonzero bits lie in
mt[0] & LOWER_MASK twists to it. -/
def Obligations.AllZeroVector : Prop :=
  (∀ v : Variant, twistMt (Vector.replicate v.n (0 : Word v)) = Vector.replicate v.n 0) ∧
  (∀ (v : Variant) (seed : Word v) (g : Gen v), (seedGen seed g).mt ≠ Vector.replicate v.n 0) ∧
  (∀ (v : Variant) (key : List (Word v)) (g : Gen v), (seedArrayGen key g).mt ≠ Vector.replicate v.n 0) ∧
  ∀ (v : Variant) (x : Word v),
    twistMt (mtWrite (Vector.replicate v.n (0 : Word v)) 0 (x &&& v.lowerMask)) = Vector.replicate v.n 0

/-! ### Tempering and draws (spec/42_next_and_tempering.md) -/

/-- R140: Temper32, step by step, with the rule's worked examples. -/
def Obligations.Temper32Steps : Prop :=
  (∀ y : BitVec 32,
    let y₁ := y ^^^ (y >>> 11)
    let y₂ := y₁ ^^^ ((y₁ <<< 7) &&& 0x9D2C5680)
    let y₃ := y₂ ^^^ ((y₂ <<< 15) &&& 0xEFC60000)
    temper (v := .mt32) y = y₃ ^^^ (y₃ >>> 18)) ∧
  temper (v := .mt32) 0 = 0 ∧ temper (v := .mt32) 0x00000001 = 0x00400091 ∧
  temper (v := .mt32) 0xFFFFFFFF = 0x6FE01BF8

/-- R141: Temper64, step by step, with the rule's worked examples. -/
def Obligations.Temper64Steps : Prop :=
  (∀ y : BitVec 64,
    let y₁ := y ^^^ ((y >>> 29) &&& 0x5555555555555555)
    let y₂ := y₁ ^^^ ((y₁ <<< 17) &&& 0x71D67FFFEDA60000)
    let y₃ := y₂ ^^^ ((y₂ <<< 37) &&& 0xFFF7EEE000000000)
    temper (v := .mt64) y = y₃ ^^^ (y₃ >>> 43)) ∧
  temper (v := .mt64) 0 = 0 ∧ temper (v := .mt64) 0x0000000000000001 = 0x0040002000020801 ∧
  temper (v := .mt64) 0xFFFFFFFFFFFFFFFF = 0x7BFEEEEFEFA1D577

/-- R10, 95_test_vectors.md section 1: the words the source prints for scalar seed 1. -/
def Obligations.SourceVectors : Prop :=
  (∀ g : Gen .mt32, (drawMany 3 (seedGen 1 g)).1 = [0x6ac1f425, 0xff4780eb, 0xb8672f8c]) ∧
  ∀ g : Gen .mt64, (drawMany 2 (seedGen 1 g)).1 = [0x2245bd5fbb686f68, 0x22eb92502318fa4e]

/-- R135, R145: after a seeding command (cursor = N), draw number n+1 answers the tempered word n mod N of the vector
after the (n/N + 1)-th Twist; after n+1 draws the vector is that one and the cursor is n mod N + 1. -/
def Obligations.RegenerationBoundary : Prop :=
  ∀ (v : Variant) (g : Gen v) (n : Nat), g.cursor.toNat = v.n →
    (drawMany (n + 1) g).1[n]? = some (temper (mtRead (twistMt^[n / v.n + 1] g.mt) (n % v.n))) ∧
    (drawMany (n + 1) g).2.mt = twistMt^[n / v.n + 1] g.mt ∧
    (drawMany (n + 1) g).2.cursor.toNat = n % v.n + 1

/-- R39, R135: each draw at N or above, sentinel or not, leaves cursor 1; below N it advances the cursor by exactly
1 and leaves the vector. Twist runs only in the first case. -/
def Obligations.DrawCadence : Prop :=
  ∀ (v : Variant) (g : Gen v),
    (g.cursor.toNat < v.n → (draw g).1.cursor.toNat = g.cursor.toNat + 1 ∧ (draw g).1.mt = g.mt) ∧
    (v.n ≤ g.cursor.toNat → (draw g).1.cursor.toNat = 1 ∧
      ∃ old : Mt v, (draw g).1.mt = twistMt old ∧ (g.cursor.toNat ≠ v.n + 1 → old = g.mt))

/-! ### Whole-machine rules -/

/-- R34, R38: the invariant holds in every system of freshly reset instances. -/
def Obligations.InvariantAtReset : Prop :=
  State.reset.Inv ∧ ∀ vs : List Variant, (State.system vs).Inv

/-- R34, R38: every step keeps the invariant: a step of the model, the state a fault carries, and a step of the
hardware. -/
def Obligations.InvariantKeptByStep : Prop :=
  ∀ s : State, s.Inv →
    (∀ t, step s = .next t → t.Inv) ∧
    (∀ w t, step s = .fault (.illegalCommand w t) → t.Inv) ∧
    (∀ t, hwStep s = .next t → t.Inv)

/-- R160, R172, R186: while every host keeps its duties, every step answers a next state, and the duties are still kept
in it; so any number of steps does. -/
def Obligations.DutifulHostsNeverStop : Prop :=
  (∀ s : State, s.Dutiful → ∃ t, step s = .next t ∧ t.Dutiful) ∧
  ∀ (k : Nat) (s : State), s.Dutiful → ∃ t, Host.Core.run Sys2Proof.core k s = .next t ∧ t.Dutiful

/-- R35: the words of a never-seeded instance are unobservable: two systems that differ in nothing but such words take
the same steps for ever and stop alike; `State.Indist` says that their hosts have received the same responses. -/
def Obligations.UnseededWordsUnobservable : Prop :=
  ∀ (k : Nat) (s t : State), State.Indist s t →
    (∀ s', hwRun k s = .next s' → ∃ t', hwRun k t = .next t' ∧ State.Indist s' t') ∧
    (∀ r, hwRun k s = .refused r → hwRun k t = .refused r)

/-- R3, R56, R169: a step changes no instance but the one its port names. -/
def Obligations.StepTouchesOneInstance : Prop :=
  ∀ (s t : State) (p : Nat) (rest : List Nat), s.schedule = p :: rest → hwStep s = .next t →
    t.schedule = rest ∧ t.insts.length = s.insts.length ∧ ∀ q, q ≠ p → t.insts[q]? = s.insts[q]?

/-- R3, R56: no order exists between commands to different instances: taken in either order they leave the same
instances. -/
def Obligations.PortsCommute : Prop :=
  ∀ (insts : List Instance) (port p q : Nat) (rest : List Nat) (t : State), p ≠ q →
    hwRun 2 { insts := insts, port := port, schedule := p :: q :: rest } = .next t →
    ∃ u, hwRun 2 { insts := insts, port := port, schedule := q :: p :: rest } = .next u ∧
      u.insts = t.insts ∧ u.schedule = t.schedule

/-- R42, R56, R142: n+1 NEXT commands in a row at one port, taken by step, answer exactly the words of n+1 draws, in
their order, and leave the vector and cursor of those draws; no other instance changes. -/
def Obligations.NextRunAnswersDraws : Prop :=
  ∀ (s : State) (p n : Nat) (rest : List Nat) (v : Variant) (b : Block v) (more : List (HostEvent v)),
    s.schedule = List.replicate (n + 1) p ++ rest → s.insts[p]? = some ⟨v, b⟩ →
    b.host = List.replicate (n + 1) (.command 0x00000004 []) ++ more →
    Host.Core.run Sys2Proof.core (n + 1) s = .next
      { insts := s.insts.set p
          ⟨v, { b with
                gen := (drawMany (n + 1) b.gen).2
                din := []
                host := more
                received := b.received ++ (drawMany (n + 1) b.gen).1.map (fun w => { status := .ok, dout := w }) }⟩
        port := p
        schedule := rest }

/-! ### The host's tools (spec/20_memory.md R52, spec/30_encoding.md R79) -/

/-- R52: a fill of n bytes issues exactly ceil(n / (W/8)) NEXT commands, and byte b of the buffer is byte b mod (W/8)
of result number b / (W/8), byte 0 being bits 7 to 0. -/
def Obligations.ByteFill : Prop :=
  ∀ (v : Variant) (n : Nat) (g : Gen v),
    (fillCommands v n).length = (n + v.w / 8 - 1) / (v.w / 8) ∧
    (∀ e ∈ fillCommands v n, e = .command 0x00000004 []) ∧
    (fill n g).1.length = n ∧
    (∀ b < n, ∃ x, (drawMany (fillCommands v n).length g).1[b / (v.w / 8)]? = some x ∧
      (fill n g).1[b]? = some (BitVec.ofNat 8 (x.toNat / 2 ^ (8 * (b % (v.w / 8)))))) ∧
    (fill n g).2 = (drawMany (fillCommands v n).length g).2

/-- R79, R172: whatever the assembler accepts is a host's dutiful action, a command word with exactly its payload. -/
def Obligations.AssembledCommandsAreDutiful : Prop :=
  ∀ (v : Variant) (lines : List (List Char)) (es : List (HostEvent v)), assembleLines v lines = some es →
    ∀ e ∈ es, ∃ (i : Instr) (payload : List (Word v)),
      e = .command (encode i) payload ∧ decode (encode i) = .ok i ∧ payload.length = payloadWords i

/-- R79: a number is a word of the variant exactly when it is in the range 0 .. 2^W - 1; the assembler refuses any
other. -/
def Obligations.AssemblerRange : Prop :=
  ∀ (v : Variant) (n : Nat),
    (n < 2 ^ v.w → ∃ x, operand v n = some x ∧ x.toNat = n) ∧ (2 ^ v.w ≤ n → operand v n = none)
end

