-- ==== Sys2Proof/Laws/State.lean ====
section
/-! SUPPORT. One lemma per field of each update of the state, all by unfolding, so that no later proof unfolds one. -/

namespace Sys2Proof.Machine

@[simp] theorem setCurrent_insts (s : State) (I : Instance) : (s.setCurrent I).insts = s.insts.set s.port I := rfl
@[simp] theorem setCurrent_port (s : State) (I : Instance) : (s.setCurrent I).port = s.port := rfl
@[simp] theorem setCurrent_schedule (s : State) (I : Instance) : (s.setCurrent I).schedule = s.schedule := rfl

@[simp] theorem setCursor_mt {v : Variant} (g : Gen v) (i : Nat) : (setCursor g i).mt = g.mt := rfl
@[simp] theorem setCursor_cursor {v : Variant} (g : Gen v) (i : Nat) :
    (setCursor g i).cursor = BitVec.ofNat v.cursorBits i := rfl

@[simp] theorem respond_gen {v : Variant} (b : Block v) (c : Status) (x : Word v) :
    (respond b c x).gen = b.gen := rfl
@[simp] theorem respond_din {v : Variant} (b : Block v) (c : Status) (x : Word v) : (respond b c x).din = [] := rfl
@[simp] theorem respond_host {v : Variant} (b : Block v) (c : Status) (x : Word v) :
    (respond b c x).host = b.host := rfl
@[simp] theorem respond_received {v : Variant} (b : Block v) (c : Status) (x : Word v) :
    (respond b c x).received = b.received ++ [{ status := c, dout := x }] := rfl
@[simp] theorem respond_source {v : Variant} (b : Block v) (c : Status) (x : Word v) :
    (respond b c x).source = b.source := rfl
@[simp] theorem respond_draws {v : Variant} (b : Block v) (c : Status) (x : Word v) :
    (respond b c x).draws = b.draws := rfl

@[simp] theorem takeIllegalCommand_gen {v : Variant} (b : Block v) : (takeIllegalCommand b).gen = b.gen := rfl
@[simp] theorem takeIllegalCommand_din {v : Variant} (b : Block v) : (takeIllegalCommand b).din = [] := rfl
@[simp] theorem takeIllegalCommand_host {v : Variant} (b : Block v) : (takeIllegalCommand b).host = b.host := rfl
@[simp] theorem takeIllegalCommand_received {v : Variant} (b : Block v) :
    (takeIllegalCommand b).received = b.received ++ [{ status := .illegal, dout := 0 }] := rfl
@[simp] theorem takeIllegalCommand_source {v : Variant} (b : Block v) : (takeIllegalCommand b).source = b.source := rfl
@[simp] theorem takeIllegalCommand_draws {v : Variant} (b : Block v) : (takeIllegalCommand b).draws = b.draws := rfl

@[simp] theorem takeReset_gen {v : Variant} (b : Block v) : (takeReset b).gen = Gen.reset v b.source (b.draws + 1) :=
  rfl
@[simp] theorem takeReset_din {v : Variant} (b : Block v) : (takeReset b).din = [] := rfl
@[simp] theorem takeReset_host {v : Variant} (b : Block v) : (takeReset b).host = b.host := rfl
@[simp] theorem takeReset_received {v : Variant} (b : Block v) : (takeReset b).received = b.received := rfl
@[simp] theorem takeReset_source {v : Variant} (b : Block v) : (takeReset b).source = b.source := rfl
@[simp] theorem takeReset_draws {v : Variant} (b : Block v) : (takeReset b).draws = b.draws + 1 := rfl

@[simp] theorem reset_cursor (v : Variant) (a d : Nat) :
    (Gen.reset v a d).cursor = BitVec.ofNat v.cursorBits v.sentinel := rfl
@[simp] theorem reset_mt (v : Variant) (a d : Nat) : (Gen.reset v a d).mt = Mt.reset v a d := rfl

/-- Instance number k of a fresh system is a fresh one with the k-th source. -/
theorem freshInstances_getElem? (a : Nat) (vs : List Variant) (k : Nat) :
    (freshInstances a vs)[k]? = vs[k]?.map (Instance.fresh · (a + k)) := by
  induction vs generalizing a k with
  | nil => rfl
  | cons v vs ih =>
    cases k with
    | zero => rfl
    | succ k => rw [freshInstances, List.getElem?_cons_succ, ih, List.getElem?_cons_succ, Nat.add_right_comm]; rfl

/-- No two instances of a fresh system draw their free words from one source (R37, R169; log entry 1). -/
theorem system_sources (vs : List Variant) (k : Nat) (I : Instance) (h : (State.system vs).insts[k]? = some I) :
    I.block.source = k := by
  rw [State.system, freshInstances_getElem?, Option.map_eq_some_iff] at h
  obtain ⟨v, -, rfl⟩ := h
  exact Nat.zero_add k

end Sys2Proof.Machine
end

