-- ==== Sys2Proof/Laws/Ops.lean ====
section
/-! SUPPORT. What each shared operation does, once: the vector's reads and writes, the loop, the cursor, the current
instance, and the one shape of a command. -/

namespace Sys2Proof.Machine

/-! ### The parameters' sizes -/

theorem n_pos (v : Variant) : 0 < v.n := by cases v <;> decide

/-- R33: the cursor register holds every cursor value up to N+1. -/
theorem sentinel_lt (v : Variant) : v.sentinel < 2 ^ v.cursorBits := by cases v <;> decide

theorem n_lt (v : Variant) : v.n < 2 ^ v.cursorBits := by cases v <;> decide

/-! ### The vector -/

theorem mtRead_lt {v : Variant} (mt : Mt v) {i : Nat} (h : i < v.n) : mtRead mt i = mt[i] := by
  simp [mtRead, Vector.getD, h]

theorem mtRead_mtWrite {v : Variant} (mt : Mt v) (i j : Nat) (x : Word v) :
    mtRead (mtWrite mt i x) j = if i = j ∧ j < v.n then x else mtRead mt j := by
  by_cases hj : j < v.n
  · simp only [mtRead_lt _ hj, mtWrite, Vector.getElem_setIfInBounds, hj, and_true]
  · simp [mtRead, Vector.getD, hj]

@[simp] theorem mtRead_mtWrite_same {v : Variant} (mt : Mt v) {i : Nat} (h : i < v.n) (x : Word v) :
    mtRead (mtWrite mt i x) i = x := by simp [mtRead_mtWrite, h]

theorem mtRead_mtWrite_ne {v : Variant} (mt : Mt v) {i j : Nat} (h : i ≠ j) (x : Word v) :
    mtRead (mtWrite mt i x) j = mtRead mt j := by simp [mtRead_mtWrite, h]

/-- Two vectors with the same words are the same vector. -/
theorem mt_ext {v : Variant} {a b : Mt v} (h : ∀ i < v.n, mtRead a i = mtRead b i) : a = b := by
  apply Vector.ext
  intro i hi
  have := h i hi
  rwa [mtRead_lt _ hi, mtRead_lt _ hi] at this

/-! ### The loop -/

@[simp] theorem forRange_zero {α : Type} (lo : Nat) (body : Nat → α → α) (x : α) : forRange lo 0 body x = x := rfl

/-- The last run of a loop's body comes after all the others. -/
theorem forRange_succ {α : Type} (lo count : Nat) (body : Nat → α → α) (x : α) :
    forRange lo (count + 1) body x = body (lo + count) (forRange lo count body x) := by
  simp [forRange, List.range'_concat]

/-- A loop cut in two. -/
theorem forRange_add {α : Type} (lo a b : Nat) (body : Nat → α → α) (x : α) :
    forRange lo (a + b) body x = forRange (lo + a) b body (forRange lo a body x) := by
  induction b with
  | zero => simp
  | succ b ih => rw [← Nat.add_assoc, forRange_succ, forRange_succ, ih, Nat.add_assoc]

/-- What every run of the body keeps, the loop keeps. -/
theorem forRange_induct {α : Type} (P : Nat → α → Prop) {lo count : Nat} {body : Nat → α → α} {x : α}
    (h0 : P 0 x) (hs : ∀ k y, k < count → P k y → P (k + 1) (body (lo + k) y)) :
    P count (forRange lo count body x) := by
  induction count with
  | zero => exact h0
  | succ c ih => rw [forRange_succ]; exact hs c _ (by omega) (ih fun k y hk => hs k y (by omega))

/-- Two loops whose bodies agree on their range are the same loop. -/
theorem forRange_congr {α : Type} {lo count : Nat} {f g : Nat → α → α} {x : α}
    (h : ∀ k y, k < count → f (lo + k) y = g (lo + k) y) : forRange lo count f x = forRange lo count g x := by
  induction count with
  | zero => rfl
  | succ c ih =>
    rw [forRange_succ, forRange_succ, ih fun k y hk => h k y (by omega), h c _ (by omega)]

/-- A loop that writes only word i in its run number i leaves the words outside its range alone. -/
theorem mtRead_forRange_outside {v : Variant} {lo count : Nat} {body : Nat → Mt v → Mt v}
    (hb : ∀ i mt j, j ≠ i → mtRead (body i mt) j = mtRead mt j) (mt : Mt v) {j : Nat}
    (hj : j < lo ∨ lo + count ≤ j) : mtRead (forRange lo count body mt) j = mtRead mt j := by
  induction count with
  | zero => rfl
  | succ c ih => rw [forRange_succ, hb _ _ _ (by omega), ih (by omega)]

/-! ### The cursor -/

theorem cursorIndex_setCursor {v : Variant} (g : Gen v) {i : Nat} (h : i < 2 ^ v.cursorBits) :
    cursorIndex (setCursor g i) = i := by
  simp [cursorIndex, setCursor, BitVec.toNat_ofNat, Nat.mod_eq_of_lt h]

/-- Writing back the index the cursor holds changes nothing. -/
theorem setCursor_cursorIndex {v : Variant} (g : Gen v) : setCursor g (cursorIndex g) = g := by
  simp [setCursor, cursorIndex]

theorem gen_ext {v : Variant} {g h : Gen v} (hm : g.mt = h.mt) (hc : g.cursor = h.cursor) : g = h := by
  cases g; cases h; simp_all

/-- Two states of an instance with the same index in the cursor have the same cursor. -/
theorem cursor_eq_of_index {v : Variant} {g h : Gen v} (e : cursorIndex g = cursorIndex h) : g.cursor = h.cursor :=
  BitVec.eq_of_toNat_eq e

@[simp] theorem cursorIndex_reset (v : Variant) (a d : Nat) : cursorIndex (Gen.reset v a d) = v.sentinel := by
  cases v <;> rfl

/-! ### The current instance -/

theorem current_setCurrent (s : State) (I : Instance) :
    (s.setCurrent I).current = if s.port < s.insts.length then some I else none := by
  simp only [State.current, setCurrent_insts, setCurrent_port, List.getElem?_set_self']
  by_cases h : s.port < s.insts.length <;> simp [h]

theorem port_lt_of_current {s : State} {I : Instance} (h : s.current = some I) : s.port < s.insts.length :=
  (List.getElem?_eq_some_iff.mp h).1

theorem current_setCurrent_of_current {s : State} {I J : Instance} (h : s.current = some I) :
    (s.setCurrent J).current = some J := by
  rw [current_setCurrent, if_pos (port_lt_of_current h)]

/-- Replacing the current instance leaves every other instance as it was (R3). -/
theorem setCurrent_other (s : State) (I : Instance) {q : Nat} (h : q ≠ s.port) :
    (s.setCurrent I).insts[q]? = s.insts[q]? := by
  simp [List.getElem?_set_ne h.symm]

@[simp] theorem setCurrent_setCurrent (s : State) (I J : Instance) :
    (s.setCurrent I).setCurrent J = s.setCurrent J := by
  simp [State.setCurrent]

/-! ### A command -/

/-- Where a command completes, and with what: its instance is there and its payload has the right length. -/
theorem runCommand_eq {count : Nat} {effect : (v : Variant) → List (Word v) → Gen v → Gen v × Word v} {s : State}
    {v : Variant} {b : Block v} (hc : s.current = some ⟨v, b⟩) (hd : b.din.length = count) :
    runCommand count effect s = .next (s.setCurrent
      ⟨v, respond { b with gen := (effect v b.din b.gen).1 } .ok (effect v b.din b.gen).2⟩) := by
  simp [runCommand, hc, hd]

/-- Everything a command can do: complete on the current instance, or refuse by one of two names. -/
theorem runCommand_cases (count : Nat) (effect : (v : Variant) → List (Word v) → Gen v → Gen v × Word v)
    (s : State) :
    (∃ (v : Variant) (b : Block v), s.current = some ⟨v, b⟩ ∧ b.din.length = count ∧
      runCommand count effect s = .next (s.setCurrent
        ⟨v, respond { b with gen := (effect v b.din b.gen).1 } .ok (effect v b.din b.gen).2⟩)) ∨
    (s.current = none ∧ runCommand count effect s = .refused .noSuchPort) ∨
    ((∃ I, s.current = some I ∧ I.block.din.length ≠ count) ∧ runCommand count effect s = .refused .payloadCount) := by
  cases hc : s.current with
  | none => exact .inr (.inl ⟨rfl, by simp [runCommand, hc]⟩)
  | some I =>
    obtain ⟨v, b⟩ := I
    by_cases hd : b.din.length = count
    · exact .inl ⟨v, b, rfl, hd, runCommand_eq hc hd⟩
    · exact .inr (.inr ⟨⟨_, rfl, hd⟩, by simp [runCommand, hc, hd]⟩)

end Sys2Proof.Machine
end

