-- ==== Sys2Proof/Laws/Seeding.lean ====
section
/-! SUPPORT. What the seedings leave in the vector. -/

namespace Sys2Proof.Machine

/-- Word i after ScalarInit, by the recurrence of R100. -/
def scalarWord {v : Variant} (seed : Word v) : Nat → Word v
  | 0 => seed
  | i + 1 => v.c1 * seedMix (scalarWord seed i) + zextW v (i + 1)

/-- A step of ScalarInit writes its own word alone. -/
theorem mtRead_scalarStep_ne {v : Variant} (i : Nat) (mt : Mt v) (j : Nat) (h : j ≠ i) :
    mtRead (scalarStep i mt) j = mtRead mt j := mtRead_mtWrite_ne mt h.symm _

/-- ScalarInit leaves the words of its recurrence, whatever the vector held before (R100). -/
theorem mtRead_scalarInit {v : Variant} (seed : Word v) (mt : Mt v) {i : Nat} (hi : i < v.n) :
    mtRead (scalarInit seed mt) i = scalarWord seed i := by
  have key : ∀ j ≤ v.n - 1, mtRead (forRange 1 (v.n - 1) scalarStep (mtWrite mt 0 seed)) j = scalarWord seed j :=
    forRange_induct (fun k x => ∀ j ≤ k, mtRead x j = scalarWord seed j)
      (fun j hj => by
        obtain rfl : j = 0 := by omega
        exact mtRead_mtWrite_same mt (n_pos v) seed)
      (fun k y hk ih j hj => by
        rcases Nat.lt_or_ge j (k + 1) with hlt | hge
        · rw [mtRead_scalarStep_ne _ _ _ (by omega)]; exact ih j (by omega)
        · obtain rfl : j = k + 1 := by omega
          rw [Nat.add_comm 1 k, scalarStep, mtRead_mtWrite_same _ (by omega), Nat.add_sub_cancel,
            ih k (Nat.le_refl k), scalarWord])
  exact key i (by omega)

/-- ScalarInit forgets the vector it starts from (R108). -/
theorem scalarInit_forgets {v : Variant} (seed : Word v) (a b : Mt v) : scalarInit seed a = scalarInit seed b :=
  mt_ext fun i hi => by rw [mtRead_scalarInit seed a hi, mtRead_scalarInit seed b hi]

/-- ArrayInit's pass 1 forgets the vector it starts from, since ScalarInit does. -/
theorem arrayPass1_forgets {v : Variant} (key : List (Word v)) (a b : Mt v) : arrayPass1 key a = arrayPass1 key b := by
  simp only [arrayPass1, scalarInit_forgets _ a b]

/-- The word at i is written and i advances: the written word stands at i, and in word 0 too where i wraps (R103). -/
theorem mtRead_advanceI {v : Variant} (x : Mix v) (val : Word v) (hi : x.i < v.n) {a : Nat} (ha : a < v.n) :
    mtRead (advanceI { x with mt := mtWrite x.mt x.i val }).mt a =
      if a = x.i ∨ (a = 0 ∧ x.i + 1 ≥ v.n) then val else mtRead x.mt a := by
  unfold advanceI
  dsimp only
  split
  · have e : v.n - 1 = x.i := by omega
    simp only [e, mtRead_mtWrite, ha, hi, and_true, eq_comm (a := a)]
    split_ifs <;> first | rfl | omega
  · rw [mtRead_mtWrite]; split_ifs <;> first | rfl | omega

theorem advanceI_i {v : Variant} (x : Mix v) : (advanceI x).i = if x.i + 1 ≥ v.n then 1 else x.i + 1 := by
  unfold advanceI; split <;> rfl

theorem advanceI_j {v : Variant} (x : Mix v) : (advanceI x).j = x.j := by unfold advanceI; split <;> rfl

theorem advanceJ_mt {v : Variant} (len : Nat) (x : Mix v) : (advanceJ len x).mt = x.mt := by
  unfold advanceJ; split <;> rfl

theorem advanceJ_i {v : Variant} (len : Nat) (x : Mix v) : (advanceJ len x).i = x.i := by
  unfold advanceJ; split <;> rfl

theorem advanceJ_j {v : Variant} (len : Nat) (x : Mix v) :
    (advanceJ len x).j = if x.j + 1 ≥ len then 0 else x.j + 1 := by unfold advanceJ; split <;> rfl

/-- ArrayInit leaves 2^(W-1) in word 0 (R105). -/
theorem mtRead_arrayInit_zero {v : Variant} (key : List (Word v)) (mt : Mt v) :
    mtRead (arrayInit key mt) 0 = v.topBit := mtRead_mtWrite_same _ (n_pos v) _

@[simp] theorem seedGen_mt {v : Variant} (seed : Word v) (g : Gen v) : (seedGen seed g).mt = scalarInit seed g.mt := rfl
@[simp] theorem seedGen_cursor {v : Variant} (seed : Word v) (g : Gen v) :
    (seedGen seed g).cursor = BitVec.ofNat v.cursorBits v.n := rfl

theorem seedArrayGen_nil {v : Variant} (g : Gen v) : seedArrayGen [] g = seedGen 0 g := rfl

theorem seedArrayGen_cons {v : Variant} {key : List (Word v)} (h : key ≠ []) (g : Gen v) :
    seedArrayGen key g = setCursor { g with mt := arrayInit key g.mt } v.n := by
  cases key with
  | nil => exact absurd rfl h
  | cons k ks => rfl

/-- Every seeding by a key leaves cursor = N (R106, R107). -/
theorem seedArrayGen_cursor {v : Variant} (key : List (Word v)) (g : Gen v) :
    (seedArrayGen key g).cursor = BitVec.ofNat v.cursorBits v.n := by
  cases key <;> rfl

end Sys2Proof.Machine
end

