-- ==== Sys2Proof/Laws/Next.lean ====
section
/-! SUPPORT. What Twist and NEXT do. -/

namespace Sys2Proof.Machine

/-- A step of Twist writes its own word alone. -/
theorem mtRead_twistStep_ne {v : Variant} (k : Nat) (mt : Mt v) (j : Nat) (h : j ≠ k) :
    mtRead (twistStep k mt) j = mtRead mt j := mtRead_mtWrite_ne mt h.symm _

/-- The first word after Twist comes from three old words. -/
theorem mtRead_twistMt_zero {v : Variant} (mt : Mt v) :
    mtRead (twistMt mt) 0 = twistWord (mtRead mt 0) (mtRead mt 1) (mtRead mt v.m) := by
  have hn : v.n = 1 + (v.n - 1) := by cases v <;> rfl
  have e : twistMt mt = forRange (0 + 1) (v.n - 1) twistStep (forRange 0 1 twistStep mt) := by
    rw [← forRange_add, ← hn, twistMt]
  rw [e, mtRead_forRange_outside mtRead_twistStep_ne _ (.inl (by omega)), forRange_succ, forRange_zero, twistStep,
    mtRead_mtWrite_same _ (by cases v <;> decide)]
  cases v <;> rfl

@[simp] theorem twist_mt {v : Variant} (g : Gen v) : (twist g).mt = twistMt g.mt := rfl
@[simp] theorem cursorIndex_twist {v : Variant} (g : Gen v) : cursorIndex (twist g) = 0 :=
  cursorIndex_setCursor _ (Nat.two_pow_pos _)

/-- NEXT below N: no Twist. -/
theorem draw_of_lt {v : Variant} {g : Gen v} (h : cursorIndex g < v.n) :
    draw g = (setCursor g (cursorIndex g + 1), temper (mtRead g.mt (cursorIndex g))) := by
  have : ¬ cursorIndex g ≥ v.n := by omega
  simp [draw, refill, this, extract]

/-- NEXT at N or above, but for the sentinel: Twist first. -/
theorem draw_of_ge {v : Variant} {g : Gen v} (h : v.n ≤ cursorIndex g) (hs : cursorIndex g ≠ v.sentinel) :
    draw g = (setCursor { g with mt := twistMt g.mt } 1, temper (mtRead (twistMt g.mt) 0)) := by
  simp only [draw, refill, ge_iff_le, h, if_true, if_neg hs, extract, cursorIndex_twist, twist_mt]
  rfl

/-- NEXT at the sentinel: the default seed, then Twist. -/
theorem draw_of_sentinel {v : Variant} {g : Gen v} (hs : cursorIndex g = v.sentinel) :
    draw g = (setCursor { g with mt := twistMt (scalarInit v.defaultSeed g.mt) } 1,
      temper (mtRead (twistMt (scalarInit v.defaultSeed g.mt)) 0)) := by
  have h : v.n ≤ cursorIndex g := by rw [hs]; exact Nat.le_succ _
  simp only [draw, refill, ge_iff_le, h, if_true, if_pos hs, extract, cursorIndex_twist, twist_mt]
  rfl

@[simp] theorem drawMany_zero {v : Variant} (g : Gen v) : drawMany 0 g = ([], g) := rfl

theorem drawMany_succ {v : Variant} (n : Nat) (g : Gen v) :
    drawMany (n + 1) g = ((draw g).2 :: (drawMany n (draw g).1).1, (drawMany n (draw g).1).2) := rfl

@[simp] theorem drawMany_length {v : Variant} (n : Nat) (g : Gen v) : (drawMany n g).1.length = n := by
  induction n generalizing g with
  | zero => rfl
  | succ n ih => simp [drawMany_succ, ih]

/-- The last draw comes after all the others. -/
theorem drawMany_last {v : Variant} (n : Nat) (g : Gen v) :
    drawMany (n + 1) g =
      ((drawMany n g).1 ++ [(draw (drawMany n g).2).2], (draw (drawMany n g).2).1) := by
  induction n generalizing g with
  | zero => rfl
  | succ n ih => rw [drawMany_succ, ih (draw g).1, drawMany_succ n g]; rfl

end Sys2Proof.Machine
end

