-- ==== Sys2Proof/Laws/Eval.lean ====
section
/-! SUPPORT. ScalarInit's recurrence on natural numbers, in a form the kernel evaluates step by step, for tests on
the words of spec/95_test_vectors.md. -/

namespace Sys2Proof.Machine

/-- The word number `i` of ScalarInit from the one before, on natural numbers (R100). -/
def scalarNatStep (v : Variant) (i x : Nat) : Nat := (v.c1.toNat * (x ^^^ (x >>> v.s)) + i) % 2 ^ v.w

/-- `fuel` steps up to word number `last`. The match on the word makes the kernel compute it before the next step. -/
def scalarNat (v : Variant) (last : Nat) : Nat → Nat → Nat
  | 0, x => x
  | fuel + 1, 0 => scalarNat v last fuel (scalarNatStep v (last - fuel) 0)
  | fuel + 1, x + 1 => scalarNat v last fuel (scalarNatStep v (last - fuel) (x + 1))

theorem scalarNat_succ (v : Variant) (last fuel x : Nat) :
    scalarNat v last (fuel + 1) x = scalarNat v last fuel (scalarNatStep v (last - fuel) x) := by
  cases x <;> rfl

theorem scalarNatStep_toNat {v : Variant} (seed : Word v) (i : Nat) :
    scalarNatStep v (i + 1) (scalarWord seed i).toNat = (scalarWord seed (i + 1)).toNat := by
  simp [scalarNatStep, scalarWord, seedMix, zextW, BitVec.toNat_add, BitVec.toNat_mul]

/-- The evaluation computes the words of the model. -/
theorem scalarNat_toNat {v : Variant} (seed : Word v) (last fuel : Nat) (h : fuel ≤ last) :
    scalarNat v last fuel (scalarWord seed (last - fuel)).toNat = (scalarWord seed last).toNat := by
  induction fuel with
  | zero => rfl
  | succ f ih =>
    rw [scalarNat_succ, show last - f = last - (f + 1) + 1 by omega, scalarNatStep_toNat,
      show last - (f + 1) + 1 = last - f by omega]
    exact ih (by omega)

/-- Word `last` of ScalarInit, evaluated. -/
theorem scalarWord_eval {v : Variant} (seed : Word v) (last : Nat) :
    scalarWord seed last = BitVec.ofNat v.w (scalarNat v last last seed.toNat) := by
  have h := scalarNat_toNat seed last last (Nat.le_refl last)
  rw [Nat.sub_self] at h
  rw [show scalarWord seed 0 = seed from rfl] at h
  rw [h, BitVec.ofNat_toNat, BitVec.setWidth_eq]

end Sys2Proof.Machine
end

