-- ==== Sys2Proof/Laws/EvalArray.lean ====
section
/-! SUPPORT. ArrayInit on lists of natural numbers, in a form the kernel evaluates step by step, for tests on the keys
of spec/95_test_vectors.md section 2.3. The words 1 to N-1 are kept as those before i, last first, and those from i on;
of word 0 only what the next step reads is kept. -/

namespace Sys2Proof.Machine

/-- `f n`, with `n` computed by the kernel first. -/
def strict {α : Type} (n : Nat) (f : Nat → α) : α :=
  match n with
  | 0 => f 0
  | k + 1 => f (k + 1)

theorem strict_eq {α : Type} (n : Nat) (f : Nat → α) : strict n f = f n := by cases n <;> rfl

/-- The words as a pass meets them: the one before i, those before i from 1 on (last first), those from i on. -/
structure Scan where
  prev : Nat
  before : List Nat
  rest : List Nat

/-- The new word at i, `add` being what the pass adds (R103, R104). -/
def scanWord (v : Variant) (mul prev old add : Nat) : Nat :=
  ((old ^^^ ((prev ^^^ (prev >>> v.s)) * mul % 2 ^ v.w)) + add) % 2 ^ v.w

/-- i moves past the new word `x`; past the last word it wraps to the first. -/
def scanMove (before tail : List Nat) (x : Nat) : Scan :=
  match tail with
  | [] => { prev := x, before := [], rest := (x :: before).reverse }
  | t :: ts => { prev := x, before := x :: before, rest := t :: ts }

/-- As many iterations as there are numbers to add. -/
def scan (v : Variant) (mul : Nat) : List Nat → Scan → Scan
  | [], z => z
  | add :: adds, z =>
    match z.rest with
    | [] => z
    | old :: tail => strict (scanWord v mul z.prev old add) fun x => scan v mul adds (scanMove z.before tail x)

/-- What pass 1 adds: key word and key index, from index j on (R103). -/
def keyAdds {v : Variant} (key : List (Word v)) : Nat → Nat → List Nat
  | 0, _ => []
  | count + 1, j => ((keyWord key j).toNat + j) :: keyAdds key count (if j + 1 ≥ key.length then 0 else j + 1)

/-- What pass 2 adds: the negated index, from i on (R104). -/
def indexAdds (v : Variant) : Nat → Nat → List Nat
  | 0, _ => []
  | count + 1, i => (2 ^ v.w - i) :: indexAdds v count (if i + 1 ≥ v.n then 1 else i + 1)

/-- The lists hold what the vector holds. -/
structure Agrees {v : Variant} (x : Mix v) (z : Scan) : Prop where
  i_pos : 1 ≤ x.i
  i_lt : x.i < v.n
  prev : z.prev = (mtRead x.mt (x.i - 1)).toNat
  before_length : z.before.length + 1 = x.i
  rest_length : z.rest.length + x.i = v.n
  words : ∀ a, a + 1 < v.n → (z.before.reverse ++ z.rest)[a]? = some (mtRead x.mt (a + 1)).toNat

theorem agrees_move {v : Variant} {x : Mix v} {prev old : Nat} {before tail : List Nat} (val : Word v)
    (h : Agrees x { prev := prev, before := before, rest := old :: tail }) :
    Agrees (advanceI { x with mt := mtWrite x.mt x.i val }) (scanMove before tail val.toNat) := by
  obtain ⟨h1, h2, -, h4, h5, h6⟩ := h
  simp only [List.length_cons] at h4 h5
  have read : ∀ {a}, a < v.n → _ := fun {a} ha => mtRead_advanceI x val h2 (a := a) ha
  have words : ∀ a, a + 1 < v.n → (before.reverse ++ val.toNat :: tail)[a]? =
      some (mtRead (advanceI { x with mt := mtWrite x.mt x.i val }).mt (a + 1)).toNat := by
    intro a ha
    rw [read ha]
    have := h6 a ha
    rcases Nat.lt_trichotomy a before.length with hlt | heq | hgt
    · rw [if_neg (by omega), ← this]
      rw [List.getElem?_append_left (by simpa using hlt), List.getElem?_append_left (by simpa using hlt)]
    · rw [if_pos (.inl (by omega))]
      rw [List.getElem?_append_right (by simp [heq])]; simp [heq]
    · rw [if_neg (by omega), ← this]
      rw [List.getElem?_append_right (by simp; omega), List.getElem?_append_right (by simp; omega)]
      obtain ⟨d, hd⟩ : ∃ d, a - before.reverse.length = d + 1 := ⟨a - before.length - 1, by simp; omega⟩
      rw [hd]; rfl
  cases tail with
  | nil =>
    have hi : x.i + 1 = v.n := by simp at h5; omega
    have hx : (advanceI { x with mt := mtWrite x.mt x.i val }).i = 1 := by rw [advanceI_i]; simp [hi]
    exact
      { i_pos := by rw [hx]
        i_lt := by rw [hx]; omega
        prev := by rw [hx, Nat.sub_self, read (n_pos v), if_pos (.inr ⟨rfl, by omega⟩)]; rfl
        before_length := by rw [hx]; rfl
        rest_length := by rw [hx]; simp [scanMove]; omega
        words := fun a ha => by simpa [scanMove] using words a ha }
  | cons t ts =>
    have hi : x.i + 1 < v.n := by simp only [List.length_cons] at h5; omega
    have hx : (advanceI { x with mt := mtWrite x.mt x.i val }).i = x.i + 1 := by
      rw [advanceI_i]; simp; omega
    exact
      { i_pos := by rw [hx]; omega
        i_lt := by rw [hx]; exact hi
        prev := by rw [hx, Nat.add_sub_cancel, read h2, if_pos (.inl rfl)]; rfl
        before_length := by rw [hx]; simp [scanMove]; omega
        rest_length := by rw [hx]; simp only [scanMove, List.length_cons] at h5 ⊢; omega
        words := fun a ha => by simpa [scanMove] using words a ha }

theorem scan_cons {v : Variant} {mul prev old add : Nat} {before tail adds : List Nat} :
    scan v mul (add :: adds) { prev := prev, before := before, rest := old :: tail } =
      scan v mul adds (scanMove before tail (scanWord v mul prev old add)) := by
  simp only [scan, strict_eq]

/-- The word at i and the one before it stand at the front of the lists. -/
theorem agrees_front {v : Variant} {x : Mix v} {z : Scan} (h : Agrees x z) :
    ∃ tail, z.rest = (mtRead x.mt x.i).toNat :: tail ∧ z.prev = (mtRead x.mt (x.i - 1)).toNat := by
  have hw := h.words (x.i - 1) (by have := h.i_pos; have := h.i_lt; omega)
  rw [List.getElem?_append_right (by simp; have := h.before_length; omega)] at hw
  have e : x.i - 1 - z.before.reverse.length = 0 := by simp; have := h.before_length; omega
  rw [e, Nat.sub_add_cancel h.i_pos] at hw
  cases hr : z.rest with
  | nil => rw [hr] at hw; cases hw
  | cons old tail => rw [hr] at hw; injection hw with hw; exact ⟨tail, by rw [← hw], h.prev⟩

theorem scan_pass1 {v : Variant} (key : List (Word v)) (count : Nat) {x : Mix v} {z : Scan} (h : Agrees x z) :
    Agrees ((pass1Step key)^[count] x) (scan v v.c2.toNat (keyAdds key count x.j) z) := by
  induction count generalizing x z with
  | zero => exact h
  | succ c ih =>
    obtain ⟨tail, hr, hp⟩ := agrees_front h
    obtain ⟨prev, before, rest⟩ := z
    simp only at hr hp
    subst hr hp
    rw [keyAdds, scan_cons, Function.iterate_succ_apply]
    have hm := agrees_move
      ((mtRead x.mt x.i ^^^ (seedMix (mtRead x.mt (x.i - 1)) * v.c2)) + keyWord key x.j + zextW v x.j) h
    have hval : ((mtRead x.mt x.i ^^^ (seedMix (mtRead x.mt (x.i - 1)) * v.c2)) + keyWord key x.j + zextW v x.j).toNat =
        scanWord v v.c2.toNat (mtRead x.mt (x.i - 1)).toNat (mtRead x.mt x.i).toNat ((keyWord key x.j).toNat + x.j) := by
      simp [scanWord, seedMix, zextW, BitVec.toNat_add, BitVec.toNat_mul, Nat.add_assoc]
    rw [hval] at hm
    have hj : (pass1Step key x).j = if x.j + 1 ≥ key.length then 0 else x.j + 1 := by
      rw [pass1Step, advanceJ_j, advanceI_j]
    have hs : Agrees (pass1Step key x) (scanMove before tail
        (scanWord v v.c2.toNat (mtRead x.mt (x.i - 1)).toNat (mtRead x.mt x.i).toNat ((keyWord key x.j).toNat + x.j))) := by
      unfold pass1Step
      obtain ⟨a1, a2, a3, a4, a5, a6⟩ := hm
      constructor <;> simp only [advanceJ_i, advanceJ_mt] <;> assumption
    have := ih hs
    rwa [hj] at this

theorem scan_pass2 {v : Variant} (count : Nat) {x : Mix v} {z : Scan} (h : Agrees x z) :
    Agrees (pass2Step^[count] x) (scan v v.c3.toNat (indexAdds v count x.i) z) := by
  induction count generalizing x z with
  | zero => exact h
  | succ c ih =>
    obtain ⟨tail, hr, hp⟩ := agrees_front h
    obtain ⟨prev, before, rest⟩ := z
    simp only at hr hp
    subst hr hp
    rw [indexAdds, scan_cons, Function.iterate_succ_apply]
    have hm := agrees_move
      ((mtRead x.mt x.i ^^^ (seedMix (mtRead x.mt (x.i - 1)) * v.c3)) - zextW v x.i) h
    have hlt : x.i < 2 ^ v.w := by have h1 := h.i_lt; have h2 : v.n < 2 ^ v.w := (by cases v <;> decide); omega
    have hval : ((mtRead x.mt x.i ^^^ (seedMix (mtRead x.mt (x.i - 1)) * v.c3)) - zextW v x.i).toNat =
        scanWord v v.c3.toNat (mtRead x.mt (x.i - 1)).toNat (mtRead x.mt x.i).toNat (2 ^ v.w - x.i) := by
      simp [scanWord, seedMix, zextW, BitVec.toNat_sub, BitVec.toNat_mul, Nat.mod_eq_of_lt hlt, Nat.add_comm]
    rw [hval] at hm
    have hi : (pass2Step x).i = if x.i + 1 ≥ v.n then 1 else x.i + 1 := by rw [pass2Step, advanceI_i]
    have := ih (x := pass2Step x) hm
    rwa [hi] at this

/-- The words of ScalarInit from word `i` on, `count` of them, from the word before. -/
def scalarList (v : Variant) : Nat → Nat → Nat → List Nat
  | 0, _, _ => []
  | count + 1, i, x => strict (scalarNatStep v i x) fun y => y :: scalarList v count (i + 1) y

theorem scalarList_getElem? {v : Variant} (seed : Word v) (count i a : Nat) (h : a < count) :
    (scalarList v count (i + 1) (scalarWord seed i).toNat)[a]? = some (scalarWord seed (i + 1 + a)).toNat := by
  induction count generalizing i a with
  | zero => omega
  | succ c ih =>
    rw [scalarList, strict_eq, scalarNatStep_toNat]
    cases a with
    | zero => rfl
    | succ a => rw [List.getElem?_cons_succ, ih (i + 1) a (by omega)]; congr 3; omega

theorem scalarList_length (v : Variant) (count i x : Nat) : (scalarList v count i x).length = count := by
  induction count generalizing i x with
  | zero => rfl
  | succ c ih => rw [scalarList, strict_eq, List.length_cons, ih]

/-- The lists at the start of pass 1. -/
def scanStart (v : Variant) : Scan :=
  { prev := v.arrayInitSeed.toNat, before := [], rest := scalarList v (v.n - 1) 1 v.arrayInitSeed.toNat }

/-- Words 1 to N-1 after ArrayInit, by lists. -/
def arrayWords {v : Variant} (key : List (Word v)) : List Nat :=
  let z := scan v v.c2.toNat (keyAdds key (max v.n key.length) 0) (scanStart v)
  let y := scan v v.c3.toNat (indexAdds v (v.n - 1) (z.before.length + 1)) z
  y.before.reverse ++ y.rest

theorem forRange_iterate {α : Type} (f : α → α) (x : α) (lo count : Nat) :
    forRange lo count (fun _ => f) x = f^[count] x := by
  induction count with
  | zero => rfl
  | succ c ih => rw [forRange_succ, ih, Function.iterate_succ_apply']

/-- The lists compute the words of the model (all but word 0, which R105 assigns). -/
theorem arrayWords_getElem? {v : Variant} (key : List (Word v)) (mt : Mt v) {a : Nat} (ha : a + 1 < v.n) :
    (arrayWords key)[a]? = some (mtRead (arrayInit key mt) (a + 1)).toNat := by
  have hn : 1 < v.n := by cases v <;> decide
  have h0 : Agrees { mt := scalarInit v.arrayInitSeed mt, i := 1, j := 0 } (scanStart v) :=
    { i_pos := Nat.le_refl 1
      i_lt := hn
      prev := by rw [Nat.sub_self, mtRead_scalarInit _ _ (n_pos v)]; rfl
      before_length := rfl
      rest_length := by simp only [scanStart, scalarList_length]; omega
      words := fun b hb => by
        rw [mtRead_scalarInit _ _ hb]
        have := scalarList_getElem? v.arrayInitSeed (v.n - 1) 0 b (by omega)
        simpa [scanStart, scalarWord, Nat.add_comm] using this }
  have h1 := scan_pass1 key (max v.n key.length) h0
  have h2 := scan_pass2 (v.n - 1) h1
  rw [← h1.before_length] at h2
  rw [arrayInit, mtRead_mtWrite_ne _ (by omega), arrayPass2, arrayPass1, forRange_iterate, forRange_iterate]
  exact h2.words a ha

/-- One of those words, evaluated. -/
theorem mtRead_arrayInit_eval {v : Variant} (key : List (Word v)) (mt : Mt v) {a : Nat} (ha : a + 1 < v.n) :
    mtRead (arrayInit key mt) (a + 1) = BitVec.ofNat v.w ((arrayWords key)[a]?.getD 0) := by
  rw [arrayWords_getElem? key mt ha, Option.getD_some, BitVec.ofNat_toNat, BitVec.setWidth_eq]

end Sys2Proof.Machine
end

