-- ==== Sys2Proof/Laws/PerInstr.lean ====
section
/-! SUPPORT. Lemmas made once per command: the family EncodeFields says what stands in the fields of a command's
word (spec/30_encoding.md R71, R72). -/

namespace Sys2Proof

/-- The low eight bits of a word put together of LEN and OPC. -/
theorem opcField_append (len : BitVec 24) (opc : BitVec 8) : opcField (len ++ opc) = opc := by
  apply BitVec.eq_of_getLsbD_eq
  intro i hi
  have h : (len ++ opc).getLsbD i = _ := BitVec.getLsbD_append
  simp_all [opcField]

/-- The high 24 bits of a word put together of LEN and OPC. -/
theorem lenField_append (len : BitVec 24) (opc : BitVec 8) : lenField (len ++ opc) = len := by
  apply BitVec.eq_of_getLsbD_eq
  intro i hi
  have h : (len ++ opc).getLsbD (8 + i) = _ := BitVec.getLsbD_append
  simp_all [lenField]

/-- A word is put together of its two fields. -/
theorem append_fields (w : CmdWord) : lenField w ++ opcField w = w := by
  apply BitVec.eq_of_getLsbD_eq
  intro i hi
  have e : (lenField w ++ opcField w).getLsbD i = _ := BitVec.getLsbD_append
  rw [e]
  simp only [opcField, lenField, BitVec.getLsbD_extractLsb']
  by_cases h : i < 8
  · simp [h]
  · have h24 : i - 8 < 24 := by omega
    simp [h, h24, show 8 + (i - 8) = i by omega]

namespace Laws.EncodeFields

/-- The command's word carries its operation code in OPC and its length in LEN. -/
def Statement (i : Instr) : Prop := opcField (encode i) = i.opc ∧ lenField (encode i) = i.len

theorem init : Statement .init := ⟨opcField_append _ _, lenField_append _ _⟩

theorem seed : Statement .seed := ⟨opcField_append _ _, lenField_append _ _⟩

theorem seedArray (len : Nat) : Statement (.seedArray len) := ⟨opcField_append _ _, lenField_append _ _⟩

theorem next : Statement .next := ⟨opcField_append _ _, lenField_append _ _⟩

end Laws.EncodeFields

end Sys2Proof
end

