-- ==== Sys2Proof/Laws/Step.lean ====
section
/-! SUPPORT. What a command and a step can do, said once. -/

namespace Sys2Proof.Machine

/-- What each command does to its instance's vector and cursor, and the word it answers. -/
def effectOf : Instr → (v : Variant) → List (Word v) → Gen v → Gen v × Word v
  | .init, v, _, g => (setCursor g v.sentinel, 0)
  | .seed, _, payload, g => (seedGen (keyWord payload 0) g, 0)
  | .seedArray _, _, payload, g => (seedArrayGen payload g, 0)
  | .next, _, _, g => draw g

/-- Every command has the one shape of `runCommand`. -/
theorem exec_eq_runCommand (i : Instr) (s : State) : exec i s = runCommand (payloadWords i) (effectOf i) s := by
  cases i <;> rfl

/-- Where a command completes, and with what. -/
theorem exec_eq {i : Instr} {s : State} {v : Variant} {b : Block v} (hc : s.current = some ⟨v, b⟩)
    (hd : b.din.length = payloadWords i) :
    exec i s = .next (s.setCurrent
      ⟨v, respond { b with gen := (effectOf i v b.din b.gen).1 } .ok (effectOf i v b.din b.gen).2⟩) := by
  rw [exec_eq_runCommand]; exact runCommand_eq hc hd

/-- If a command answers a next state, it is this one. -/
theorem exec_next {i : Instr} {s t : State} (h : exec i s = .next t) :
    ∃ (v : Variant) (b : Block v), s.current = some ⟨v, b⟩ ∧ b.din.length = payloadWords i ∧
      t = s.setCurrent
        ⟨v, respond { b with gen := (effectOf i v b.din b.gen).1 } .ok (effectOf i v b.din b.gen).2⟩ := by
  rw [exec_eq_runCommand] at h
  rcases runCommand_cases (payloadWords i) (effectOf i) s with ⟨v, b, hc, hd, he⟩ | ⟨-, he⟩ | ⟨-, he⟩
  · rw [he] at h; injection h with h; exact ⟨v, b, hc, hd, h.symm⟩
  · rw [he] at h; cases h
  · rw [he] at h; cases h

/-- The host's actions that come to a reset (R171, R181). -/
def resets {v : Variant} : HostEvent v → Bool
  | .command _ _ => false
  | .cutCommand _ _ => true
  | .reset => true
  | .powerCycle => true

theorem serve_reset {v : Variant} (s : State) (b : Block v) {e : HostEvent v} (h : resets e = true) :
    serve s b e = .settled (s.setCurrent ⟨v, takeReset b⟩) := by
  cases e <;> first | rfl | cases h

/-- With nothing scheduled the state is held. -/
theorem step_idle {s : State} (h : s.schedule = []) : step s = .next s := by simp [step, fetch, h]

section scheduled

variable {s : State} {p : Nat} {rest : List Nat} {v : Variant} {b : Block v}

theorem step_noPort (hs : s.schedule = p :: rest) (hp : s.insts[p]? = none) : step s = .refused .noSuchPort := by
  simp [step, fetch, hs, hp]

theorem step_quiet (hs : s.schedule = p :: rest) (hp : s.insts[p]? = some ⟨v, b⟩) (hh : b.host = []) :
    step s = .next { s with port := p, schedule := rest } := by
  simp [step, fetch, hs, hp, hh]

/-- A scheduled host that acts is served (R56). -/
theorem fetch_serve {e : HostEvent v} {more : List (HostEvent v)} (hs : s.schedule = p :: rest)
    (hp : s.insts[p]? = some ⟨v, b⟩) (hh : b.host = e :: more) :
    fetch s = serve { s with port := p, schedule := rest } { b with host := more } e := by
  simp [fetch, hs, hp, hh]

theorem step_reset {e : HostEvent v} {more : List (HostEvent v)} (hs : s.schedule = p :: rest)
    (hp : s.insts[p]? = some ⟨v, b⟩) (hh : b.host = e :: more) (he : resets e = true) :
    step s = .next (State.setCurrent { s with port := p, schedule := rest }
      ⟨v, takeReset { b with host := more }⟩) := by
  simp only [step, fetch_serve hs hp hh, serve_reset _ _ he]

/-- A step runs the command its word stands for, with the payload on DIN. -/
theorem step_command {w : CmdWord} {payload : List (Word v)} {more : List (HostEvent v)} {i : Instr}
    (hs : s.schedule = p :: rest) (hp : s.insts[p]? = some ⟨v, b⟩) (hh : b.host = .command w payload :: more)
    (hi : decode w = .ok i) :
    step s = exec i (State.setCurrent { s with port := p, schedule := rest }
      ⟨v, { b with host := more, din := payload }⟩) := by
  simp only [step, fetch_serve hs hp hh, serve, hi]

/-- A step faults on an illegal command word (R161). -/
theorem step_illegal {w : CmdWord} {payload : List (Word v)} {more : List (HostEvent v)} {e : Illegal}
    (hs : s.schedule = p :: rest) (hp : s.insts[p]? = some ⟨v, b⟩) (hh : b.host = .command w payload :: more)
    (hi : decode w = .error e) :
    step s = .fault (.illegalCommand w (State.setCurrent { s with port := p, schedule := rest }
      ⟨v, takeIllegalCommand { b with host := more }⟩)) := by
  simp only [step, fetch_serve hs hp hh, serve, hi]

end scheduled

/-- Everything that can be the case when a step is taken; `step_idle`, `step_noPort`, `step_quiet`, `step_reset`,
`step_command` and `step_illegal` say what each comes to. -/
theorem step_situations (s : State) :
    s.schedule = [] ∨ ∃ p rest, s.schedule = p :: rest ∧ (s.insts[p]? = none ∨
      ∃ (v : Variant) (b : Block v), s.insts[p]? = some ⟨v, b⟩ ∧ (b.host = [] ∨
        ∃ e more, b.host = e :: more ∧ (resets e = true ∨
          ∃ w payload, e = .command w payload ∧ ((∃ i, decode w = .ok i) ∨ ∃ x, decode w = .error x)))) := by
  rcases hs : s.schedule with _ | ⟨p, rest⟩
  · exact .inl rfl
  refine .inr ⟨p, rest, rfl, ?_⟩
  rcases hp : s.insts[p]? with _ | ⟨v, b⟩
  · exact .inl rfl
  refine .inr ⟨v, b, rfl, ?_⟩
  rcases hh : b.host with _ | ⟨e, more⟩
  · exact .inl rfl
  refine .inr ⟨e, more, rfl, ?_⟩
  cases e with
  | command w payload =>
    refine .inr ⟨w, payload, rfl, ?_⟩
    cases hi : decode w with
    | ok i => exact .inl ⟨i, rfl⟩
    | error x => exact .inr ⟨x, rfl⟩
  | cutCommand w payload => exact .inl rfl
  | reset => exact .inl rfl
  | powerCycle => exact .inl rfl

/-- The hardware's step is the model's, but for the illegal word. -/
theorem hwStep_of_next {s t : State} (h : step s = .next t) : hwStep s = .next t := by simp [hwStep, h]

theorem hwStep_of_illegal {s t : State} {w : CmdWord} (h : step s = .fault (.illegalCommand w t)) :
    hwStep s = .next t := by simp [hwStep, h]

theorem hwStep_of_refused {s : State} {r : Refusal} (h : step s = .refused r) : hwStep s = .refused r := by
  simp [hwStep, h]

end Sys2Proof.Machine
end

