-- ==== Sys2Proof/Tests/Slice0.lean ====
section
/-! SUPPORT. Tests with expected values from spec/95_test_vectors.md, from the encodings of spec/30_encoding.md, or by
hand calculation from a rule, and a witness for the hypotheses of every statement that has some. -/

namespace Sys2Proof.Tests

open Sys2Proof Sys2Proof.Machine

/-! ### Small states -/

/-- A vector of zeros. -/
def zeros (v : Variant) : Mt v := Vector.replicate v.n 0

/-- An instance with a vector of zeros, a cursor, words on DIN and a host. -/
def block (v : Variant) (cursor : Nat) (din : List (Word v)) (host : List (HostEvent v)) : Block v :=
  { gen := { mt := zeros v, cursor := BitVec.ofNat v.cursorBits cursor }
    din := din, host := host, received := [], source := 0, draws := 0 }

/-- A system of one such instance. -/
def one (v : Variant) (cursor : Nat) (din : List (Word v)) (host : List (HostEvent v)) (schedule : List Nat) : State :=
  { insts := [⟨v, block v cursor din host⟩], port := 0, schedule := schedule }

/-- A system of one instance of each variant, each with a host that gives one INIT. -/
def two (schedule : List Nat) : State :=
  { insts := [⟨.mt32, block .mt32 5 [] [.command 0x00000001 []]⟩, ⟨.mt64, block .mt64 6 [] [.command 0x00000001 []]⟩]
    port := 0
    schedule := schedule }

/-- The outcome is a next state. -/
def completes : Host.Outcome State Fault Refusal → Bool
  | .next _ => true
  | .fault _ => false
  | .refused _ => false

/-- The outcome is IllegalCommand, for this word. -/
def faultsOn (w : CmdWord) : Host.Outcome State Fault Refusal → Bool
  | .next _ => false
  | .fault (.illegalCommand x _) => x == w
  | .refused _ => false

/-! ### Well-formedness, decoding and encoding -/

/-- A key longer than LEN can say is no command (R11, R71). -/
theorem test_wf_refuses_long_key : (Instr.seedArray 16777216).wf = false := by decide

theorem test_wf_accepts_longest_key : (Instr.seedArray 16777215).wf = true := by decide

/-- The rows of R72, bit by bit: LEN of 24 bits, then OPC of 8. -/
theorem test_decode_rows :
    decode 0b00000000000000000000000000000001#32 = .ok .init ∧
    decode 0b00000000000000000000000000000010#32 = .ok .seed ∧
    decode 0b00000000000000000000010000000011#32 = .ok (.seedArray 4) ∧
    decode 0b10000000000000000000000000000011#32 = .ok (.seedArray 8388608) ∧
    decode 0b00000000000000000000000000000100#32 = .ok .next := by decide

/-- The illegal words of 95_test_vectors.md section 5. -/
theorem test_decode_illegal :
    decode 0x00000000 = .error .unknownOpc ∧ decode 0x00000005 = .error .unknownOpc ∧
    decode 0x000000FF = .error .unknownOpc ∧ decode 0x00000104 = .error .lenNotZero ∧
    decode 0x00000101 = .error .lenNotZero ∧ decode 0x00000102 = .error .lenNotZero := by decide

/-- The command words of programs P1 to P3 (95_test_vectors.md section 7). -/
theorem test_encode_rows :
    encode .init = 0x00000001 ∧ encode .seed = 0x00000002 ∧ encode (.seedArray 4) = 0x00000403 ∧
    encode .next = 0x00000004 := by decide

/-- The table numbers bit 0 as the command word's least significant bit. -/
theorem test_decodeTableWord :
    decodeTableWord 32 0x00000403 = some (.seedArray 4) ∧ decodeTableWord 8 3 = some (.seedArray 0) ∧
    decodeTableWord 32 4 = some .next ∧ decodeTableWord 32 0 = none := by decide

/-- Every row's word runs as the first step after reset. -/
theorem test_rows_run_from_reset :
    completes (step (State.reset.withFetchWord 32 1)) = true ∧ completes (step (State.reset.withFetchWord 32 2)) = true ∧
    completes (step (State.reset.withFetchWord 32 0x403)) = true ∧
    completes (step (State.reset.withFetchWord 32 3)) = true ∧
    completes (step (State.reset.withFetchWord 32 4)) = true := by decide

/-- An illegal word is a fault of the step (R161); the hardware goes on (R165). -/
theorem test_illegal_word :
    faultsOn 0x104 (step (State.reset.withFetchWord 32 0x104)) = true ∧
    completes (hwStep (State.reset.withFetchWord 32 0x104)) = true := by decide

/-! ### INIT -/

/-- 95_test_vectors.md section 2.2: from any state to cursor = N+1, 625 or 313. -/
theorem test_init_cursor :
    (effectOf .init .mt32 [] (block .mt32 17 [] []).gen).1.cursor = 625#10 ∧
    (effectOf .init .mt64 [] (block .mt64 17 [] []).gen).1.cursor = 313#9 := by decide

/-! ### SEED -/

/-- 95_test_vectors.md section 2.1: words after SEED, from both ends of the vector. -/
theorem test_seed_words :
    scalarWord (v := .mt32) 0 2 = 0x6c078967 ∧ scalarWord (v := .mt32) 0xffffffff 3 = 0xc1331af4 ∧
    scalarWord (v := .mt32) 1 623 = 0x7b5687a5 ∧
    scalarWord (v := .mt64) 1 2 = 0x190380fc9abaac45 ∧
    scalarWord (v := .mt64) 0xffffffffffffffff 311 = 0xe6aeb038be6a9de7 := by
  refine ⟨?_, ?_, ?_, ?_, ?_⟩ <;> (rw [scalarWord_eval]; decide +kernel)

/-- SEED leaves cursor = N (R102). -/
theorem test_seed_cursor (g : Gen .mt32) (h : Gen .mt64) :
    (seedGen 7 g).cursor = 624#10 ∧ (seedGen 7 h).cursor = 312#9 := ⟨rfl, rfl⟩

/-! ### SEED_ARRAY -/

/-- One iteration of pass 1 at the wrap of both indices, and one of pass 2 there, with mt[622] = 0xC0000007 and
mt[623] = 5: by hand from R103 and R104, the key word 0x123. -/
theorem test_array_wrap :
    let mt : Mt .mt32 := mtWrite (mtWrite (zeros .mt32) 622 0xC0000007) 623 5
    let x := pass1Step [0x123] { mt := mt, i := 623, j := 0 }
    let y := pass2Step { mt := mt, i := 623, j := 0 }
    mtRead x.mt 623 = 0xc0659954 ∧ mtRead x.mt 0 = 0xc0659954 ∧ x.i = 1 ∧ x.j = 0 ∧
    mtRead y.mt 623 = 0x35622b22 ∧ mtRead y.mt 0 = 0x35622b22 ∧ y.i = 1 := by decide +kernel

/-- 95_test_vectors.md section 2.3: the first draw after SEED_ARRAY with the source's keys, which reads words 0, 1 and
M, and the last word; the 64-bit value is the one that tells the two readings of R105 apart (90_conflicts.md C1). -/
theorem test_array_vectors (g : Gen .mt32) (h : Gen .mt64) :
    (draw (seedArrayGen [0x123, 0x234, 0x345, 0x456] g)).2 = 1067595299 ∧
    mtRead (seedArrayGen [0x123, 0x234, 0x345, 0x456] g).mt (622 + 1) = 0x049ed813 ∧
    (draw (seedArrayGen [0x12345, 0x23456, 0x34567, 0x45678] h)).2 = 7266447313870364031 := by
  have first (v : Variant) (key : List (Word v)) (hk : key ≠ []) (g : Gen v) :
      (draw (seedArrayGen key g)).2 = temper (twistWord v.topBit (BitVec.ofNat v.w ((arrayWords key)[0]?.getD 0))
        (BitVec.ofNat v.w ((arrayWords key)[v.m - 1]?.getD 0))) := by
    have hc : cursorIndex (seedArrayGen key g) = v.n := by
      rw [seedArrayGen_cons hk]; exact cursorIndex_setCursor _ (n_lt v)
    have hm : v.m - 1 + 1 = v.m := by cases v <;> rfl
    rw [draw_of_ge (by rw [hc]) (by rw [hc]; simp [Variant.sentinel]), mtRead_twistMt_zero, seedArrayGen_cons hk,
      setCursor_mt, mtRead_arrayInit_zero, mtRead_arrayInit_eval key g.mt (a := 0) (by cases v <;> decide),
      ← mtRead_arrayInit_eval key g.mt (a := v.m - 1) (by rw [hm]; cases v <;> decide), hm]
  refine ⟨?_, ?_, ?_⟩
  · rw [first _ _ (by simp)]; decide +kernel
  · rw [seedArrayGen_cons (by simp), setCursor_mt, mtRead_arrayInit_eval _ _ (by decide)]; decide +kernel
  · rw [first _ _ (by simp)]; decide +kernel

/-! ### NEXT -/

/-- The first word after a seeding, through Twist, from three words of the recurrence. -/
theorem draw_after_seed {v : Variant} (seed : Word v) (g : Gen v) :
    (draw (seedGen seed g)).2 =
      temper (twistWord (scalarWord seed 0) (scalarWord seed 1) (scalarWord seed v.m)) := by
  have hc : cursorIndex (seedGen seed g) = v.n := cursorIndex_setCursor _ (n_lt v)
  have hm : v.m < v.n := by cases v <;> decide
  rw [draw_of_ge (by rw [hc]) (by rw [hc]; simp [Variant.sentinel]), mtRead_twistMt_zero, seedGen_mt,
    mtRead_scalarInit _ _ (n_pos v), mtRead_scalarInit _ _ hm,
    mtRead_scalarInit _ _ (show 1 < v.n by cases v <;> decide)]

/-- 95_test_vectors.md sections 1 and 2.4: the source's first words after SEED 1, and the first words after reset. -/
theorem test_next_vectors (g : Gen .mt32) (h : Gen .mt64) :
    (draw (seedGen 1 g)).2 = 0x6ac1f425 ∧ (draw (seedGen 1 h)).2 = 0x2245bd5fbb686f68 ∧
    (draw (Gen.reset .mt32 0 0)).2 = 3499211612 ∧ (draw (Gen.reset .mt64 1 0)).2 = 14514284786278117030 := by
  have lazy (v : Variant) (a : Nat) :
      (draw (Gen.reset v a 0)).2 = (draw (seedGen v.defaultSeed (Gen.reset v a 0))).2 := by
    have hc : cursorIndex (seedGen v.defaultSeed (Gen.reset v a 0)) = v.n := cursorIndex_setCursor _ (n_lt v)
    rw [draw_of_sentinel (cursorIndex_reset v a 0), draw_of_ge (by rw [hc]) (by rw [hc]; simp [Variant.sentinel])]
    rfl
  simp only [lazy, draw_after_seed, scalarWord_eval]
  decide +kernel

/-- Tempering (95_test_vectors.md section 4), and single steps of Twist at the wraps of both indices, on vectors with
one nonzero word: what the last steps of the first and third rows of section 3.3 come to. -/
theorem test_temper_twist :
    temper (v := .mt32) 0x12345678 = 0x2b7e4a2d ∧ temper (v := .mt64) 0x0123456789abcdef = 0x2254da7001198660 ∧
    mtRead (twistStep 227 (mtWrite (zeros .mt32) 0 0x9908b0df)) 227 = 0x9908b0df ∧
    mtRead (twistStep 623 (mtWrite (zeros .mt32) 0 0x9908b0df)) 623 = 0x958ce8b0 ∧
    mtRead (twistStep 311 (mtWrite (zeros .mt64) 0 0xb5026f5aa96619e9)) 311 = 0xb5026f5abdd5151d := by decide +kernel

/-! ### The host's tools -/

/-- 95_test_vectors.md section 6: fills of 5 and of 3 bytes after SEED 1; a fill of 0 bytes draws nothing. -/
theorem test_fill_bytes :
    fillBytes (v := .mt32) 5 [0x6ac1f425, 0xff4780eb] = [0x25, 0xf4, 0xc1, 0x6a, 0xeb] ∧
    fillBytes (v := .mt64) 3 [0x2245bd5fbb686f68] = [0x68, 0x6f, 0x68] ∧
    fillDraws .mt32 0 = 0 ∧ fillDraws .mt32 9 = 3 ∧ fillDraws .mt64 9 = 2 := by decide

/-- R79 and 95_test_vectors.md section 7: lines of programs, with a comment, a hexadecimal number, a number out of
range, and a lower-case mnemonic. -/
theorem test_assembler :
    assembleLine .mt32 ['S', 'E', 'E', 'D', ' ', '0', 'x', '1', '5', '7', '1', ';', 'x'] =
      some [.command 0x00000002 [0x00001571]] ∧
    assembleLine .mt32 (['S', 'E', 'E', 'D', '_', 'A', 'R', 'R', 'A', 'Y', ' ', openBraceChar, '7', ',', ' ', '8'] ++
      [closeBraceChar]) = some [.command 0x00000203 [7, 8]] ∧
    assembleLine .mt32 ['S', 'E', 'E', 'D', ' ', '4', '2', '9', '4', '9', '6', '7', '2', '9', '6'] = none ∧
    assembleLine .mt64 ['n', 'e', 'x', 't'] = none := by decide

/-! ### Witnesses: the hypotheses of each statement can be met -/

/-- The last bit of each word, and the sentinel as the last cursor value. -/
theorem witness_MasksSplitTheWord_CursorRegisterWidth :
    31 < Variant.mt32.w ∧ 63 < Variant.mt64.w ∧ 625 ≤ Variant.mt32.n + 1 ∧ 313 ≤ Variant.mt64.n + 1 := by decide

theorem witness_DecodeOfEncode : (Instr.seedArray 16777215).WellFormed ∧ Instr.next.WellFormed := by decide

theorem witness_EncodeOfDecode : decode 0xFFFFFF03 = .ok (.seedArray 16777215) ∧ decode 0x00000001 = .ok .init := by
  decide

theorem witness_StepRunsDecodedCommand :
    let b := block .mt32 624 [] [.command 0x00000002 [1]]
    let s : State := { insts := [⟨.mt32, b⟩], port := 7, schedule := [0] }
    s.schedule = [0] ∧ s.insts[0]? = some ⟨.mt32, b⟩ ∧ b.host = .command 0x00000002 [1] :: [] ∧
      decode 0x00000002 = .ok .seed := ⟨rfl, rfl, rfl, rfl⟩

theorem witness_IllegalWordFaults :
    let b := block .mt64 312 [] [.command 0x00000104 [1]]
    let s : State := { insts := [⟨.mt64, b⟩], port := 0, schedule := [0] }
    s.schedule = [0] ∧ s.insts[0]? = some ⟨.mt64, b⟩ ∧ b.host = .command 0x00000104 [1] :: [] ∧
      decode 0x00000104 = .error .lenNotZero := ⟨rfl, rfl, rfl, rfl⟩

theorem witness_SecondIllegalWord :
    let b := block .mt32 1 [] [.command 0x00000005 [], .command 0x00000104 []]
    let s : State := { insts := [⟨.mt32, b⟩], port := 0, schedule := [0, 0] }
    s.schedule = 0 :: 0 :: [] ∧ s.insts[0]? = some ⟨.mt32, b⟩ ∧
      b.host = .command 0x00000005 [] :: .command 0x00000104 [] :: [] ∧
      decode 0x00000005 = .error .unknownOpc ∧ decode 0x00000104 = .error .lenNotZero := ⟨rfl, rfl, rfl, rfl, rfl⟩

theorem witness_OnlyIllegalWordsFault :
    ∃ f, step (one .mt32 1 [] [.command 0x00000005 []] [0]) = .fault f := ⟨_, rfl⟩

theorem witness_IdleHoldsState :
    (one .mt32 1 [] [] []).schedule = [] ∧
    (let s := one .mt64 1 [] [] [0]
     s.schedule = 0 :: [] ∧ s.insts[0]? = some ⟨.mt64, block .mt64 1 [] []⟩ ∧ (block .mt64 1 [] []).host = []) :=
  ⟨rfl, rfl, rfl, rfl⟩

theorem witness_UnknownPortRefused :
    (let s := one .mt32 1 [] [] [1]
     s.schedule = 1 :: [] ∧ s.insts[1]? = none) ∧
    ({ one .mt32 1 [] [] [] with port := 1 } : State).current = none := ⟨⟨rfl, rfl⟩, rfl⟩

theorem witness_WrongPayloadRefused :
    (one .mt32 1 [] [] []).current = some ⟨.mt32, block .mt32 1 [] []⟩ ∧
    (block .mt32 1 [] []).din.length ≠ payloadWords .seed := ⟨rfl, by decide⟩

theorem witness_ResetCursors : ([.mt32, .mt64, .mt64] : List Variant)[2]? = some .mt64 := rfl

theorem witness_ResetEventResets :
    (∀ e : HostEvent .mt32, e = .reset ∨ e = .powerCycle ∨ e = .cutCommand 0x00000002 [1] →
      let b := block .mt32 9 [] [e]
      let s : State := { insts := [⟨.mt32, b⟩], port := 0, schedule := [0] }
      s.schedule = 0 :: [] ∧ s.insts[0]? = some ⟨.mt32, b⟩ ∧ b.host = e :: [] ∧
        (e = .reset ∨ e = .powerCycle ∨ ∃ w payload, e = .cutCommand w payload)) :=
  fun _ h => ⟨rfl, rfl, rfl, h.imp_right (Or.imp_right fun h => ⟨_, _, h⟩)⟩

/-- For INIT, for NEXT in each clause (N-1, N, N+1, and a cursor no run reaches), for the empty key and for the lazy
default seed. -/
theorem witness_NoPayload (v : Variant) (c : Nat) :
    (one v c [] [] []).current = some ⟨v, block v c [] []⟩ ∧ (block v c [] []).din = [] := ⟨rfl, rfl⟩

theorem witness_NextResult_clauses :
    (block .mt32 623 [] []).gen.cursor.toNat < Variant.mt32.n ∧
    ¬ (block .mt32 624 [] []).gen.cursor.toNat < Variant.mt32.n ∧ (block .mt32 624 [] []).gen.cursor.toNat ≠ 625 ∧
    (block .mt64 311 [] []).gen.cursor.toNat < Variant.mt64.n ∧
    ¬ (block .mt64 312 [] []).gen.cursor.toNat < Variant.mt64.n ∧ (block .mt64 511 [] []).gen.cursor.toNat = 511 := by
  decide

theorem witness_LazyDefaultSeed :
    (block .mt32 625 [] []).gen.cursor.toNat = Variant.mt32.n + 1 ∧
    (block .mt64 313 [] []).gen.cursor.toNat = Variant.mt64.n + 1 := by decide

theorem witness_SeedResult :
    (one .mt64 1 [5] [] []).current = some ⟨.mt64, block .mt64 1 [5] []⟩ ∧ (block .mt64 1 [5] []).din = [5] :=
  ⟨rfl, rfl⟩

theorem witness_SeedArrayResult (v : Variant) (key : List (Word v)) :
    (one v 1 key [] []).current = some ⟨v, block v 1 key []⟩ ∧ (block v 1 key []).din = key ∧
    ([5] : List (Word v)) ≠ [] := ⟨rfl, rfl, by simp⟩

/-- Each command answers a next state somewhere. -/
theorem witness_CommandFrame :
    (∃ t, exec .init (one .mt32 1 [] [] []) = .next t) ∧ (∃ t, exec .seed (one .mt32 1 [5] [] []) = .next t) ∧
    (∃ t, exec (.seedArray 2) (one .mt64 1 [5, 6] [] []) = .next t) ∧
    ∃ t, exec .next (one .mt64 1 [] [] []) = .next t := ⟨⟨_, rfl⟩, ⟨_, rfl⟩, ⟨_, rfl⟩, _, rfl⟩

theorem witness_VectorFrame :
    (∃ t c, exec .init (one .mt32 1 [] [] []) = .next t ∧ t.current = some ⟨.mt32, c⟩) ∧
    (∃ t c, exec .next (one .mt32 623 [] [] []) = .next t ∧ t.current = some ⟨.mt32, c⟩) ∧
    (block .mt32 623 [] []).gen.cursor.toNat < Variant.mt32.n :=
  ⟨⟨_, _, rfl, rfl⟩, ⟨_, _, rfl, rfl⟩, by decide⟩

theorem witness_SeedArrayTopWord :
    (∃ t c, exec (.seedArray ([5] : List (Word .mt32)).length) (one .mt32 1 [5] [] []) = .next t ∧
      t.current = some ⟨.mt32, c⟩) ∧
    ∃ t c, exec (.seedArray ([] : List (Word .mt32)).length) (one .mt32 1 [] [] []) = .next t ∧
      t.current = some ⟨.mt32, c⟩ := ⟨⟨_, _, rfl, rfl⟩, _, _, rfl, rfl⟩

theorem witness_SeedingIsDeterminedByPayload :
    (one .mt32 1 [5] [] []).current = some ⟨.mt32, block .mt32 1 [5] []⟩ ∧
    (one .mt32 624 [5] [] []).current = some ⟨.mt32, block .mt32 624 [5] []⟩ ∧
    (block .mt32 1 [5] []).din = (block .mt32 624 [5] []).din ∧
    (block .mt32 1 [5] []).din.length = payloadWords .seed ∧
    (block .mt32 1 [5] []).din.length = payloadWords (.seedArray 1) := ⟨rfl, rfl, rfl, rfl, rfl⟩

theorem witness_SeedingTwiceIsOnce :
    ∃ t c, Instr.seed ≠ .next ∧ (one .mt32 1 [5] [] []).current = some ⟨.mt32, block .mt32 1 [5] []⟩ ∧
      exec .seed (one .mt32 1 [5] [] []) = .next t ∧ t.current = some ⟨.mt32, c⟩ :=
  ⟨_, _, by decide, rfl, rfl, rfl⟩

theorem witness_ArrayIndexBookkeeping :
    (List.replicate 624 (0 : Word .mt32)).length ≤ Variant.mt32.n ∧
    Variant.mt32.n < (List.replicate 625 (0 : Word .mt32)).length := by
  rw [List.length_replicate, List.length_replicate]; decide

/-- Words of every kind: the last before each wrap, the first after it, and the last of all. -/
theorem witness_TwistWordByWord :
    226 < Variant.mt32.n - Variant.mt32.m ∧ ¬ 227 < Variant.mt32.n - Variant.mt32.m ∧ 622 + 1 < Variant.mt32.n ∧
    623 < Variant.mt32.n ∧ ¬ 623 + 1 < Variant.mt32.n := by decide

theorem witness_TwistReadsUpperPartOfFirstWord :
    (0x7FFFFFFF : Word .mt32) &&& Variant.mt32.upperMask = mtRead (zeros .mt32) 0 &&& Variant.mt32.upperMask := by
  decide +kernel

theorem witness_RegenerationBoundary :
    (block .mt32 624 [] []).gen.cursor.toNat = Variant.mt32.n ∧
    (block .mt64 312 [] []).gen.cursor.toNat = Variant.mt64.n := by decide

theorem witness_DrawCadence :
    (block .mt32 623 [] []).gen.cursor.toNat < Variant.mt32.n ∧
    Variant.mt32.n ≤ (block .mt32 624 [] []).gen.cursor.toNat ∧
    (block .mt32 624 [] []).gen.cursor.toNat ≠ Variant.mt32.n + 1 := by decide

theorem witness_InvariantKeptByStep :
    (one .mt32 624 [] [.command 0x00000004 []] [0]).Inv ∧
    (∃ t, step (one .mt32 624 [] [.command 0x00000004 []] [0]) = .next t) ∧
    (one .mt32 625 [] [.command 0x00000005 []] [0]).Inv ∧
    (∃ w t, step (one .mt32 625 [] [.command 0x00000005 []] [0]) = .fault (.illegalCommand w t)) ∧
    ∃ t, hwStep (one .mt32 625 [] [.command 0x00000005 []] [0]) = .next t :=
  ⟨by decide, ⟨_, rfl⟩, by decide, ⟨_, _, rfl⟩, _, rfl⟩

theorem witness_DutifulHostsNeverStop :
    (one .mt32 624 [] [.command 0x00000203 [1, 2], .reset, .cutCommand 0x00000002 []] [0, 0, 0]).Dutiful := by decide

/-- A never-seeded instance with zeros, and one with another first word. -/
theorem witness_UnseededWordsUnobservable :
    let b := block .mt32 625 [] [.command 0x00000004 []]
    let c := { b with gen := { b.gen with mt := mtWrite (zeros .mt32) 0 1 } }
    State.Indist { insts := [⟨.mt32, b⟩], port := 0, schedule := [0] }
      { insts := [⟨.mt32, c⟩], port := 0, schedule := [0] } :=
  ⟨.cons ⟨.mt32, _, _, rfl, rfl, ⟨rfl, fun h => absurd rfl h⟩, rfl, rfl, rfl⟩ .nil, rfl, rfl⟩

/-- A run that ends in a refusal. -/
theorem witness_UnseededWordsUnobservable_refusal :
    hwRun 1 (one .mt32 625 [] [.command 0x00000002 []] [0]) = .refused .payloadCount := rfl

theorem witness_NextRunAnswersDraws :
    let b := block .mt32 623 [] (List.replicate (1 + 1) (.command 0x00000004 []))
    let s : State := { insts := [⟨.mt32, b⟩], port := 3, schedule := List.replicate (1 + 1) 0 }
    s.schedule = List.replicate (1 + 1) 0 ++ [] ∧ s.insts[0]? = some ⟨.mt32, b⟩ ∧
      b.host = List.replicate (1 + 1) (.command 0x00000004 []) ++ [] := ⟨rfl, rfl, rfl⟩

theorem witness_StepTouchesOneInstance :
    (two [0]).schedule = 0 :: [] ∧ ∃ t, hwStep (two [0]) = .next t := ⟨rfl, _, rfl⟩

theorem witness_PortsCommute : (0 : Nat) ≠ 1 ∧ ∃ t, hwRun 2 (two [0, 1]) = .next t := ⟨by decide, _, rfl⟩

/-- The last byte of a fill that takes one byte of its last word. -/
theorem witness_ByteFill : 8 < 9 ∧ 8 / (Variant.mt64.w / 8) = 1 ∧ 8 % (Variant.mt64.w / 8) = 0 := by decide

theorem witness_AssembledCommandsAreDutiful :
    assembleLines .mt32 [['N', 'E', 'X', 'T'], [], ['I', 'N', 'I', 'T']] =
      some [.command 0x00000004 [], .command 0x00000001 []] := by decide

theorem witness_AssemblerRange : 4294967295 < 2 ^ Variant.mt32.w ∧ 2 ^ Variant.mt32.w ≤ 4294967296 := by decide

end Sys2Proof.Tests
end

section
/-! Proofs for spec/00_scope.md: the parameters of R6 and R8, the masks of R7, and the source's vectors of R10, by way
of what a run of draws answers and what Twist leaves in its first N - M words. -/

namespace Sys2Proof.Machine

/-! ### The masks of R7 -/

theorem upperMask_eq_shift (v : Variant) : v.upperMask = BitVec.allOnes v.w <<< (v.w - v.rUp) := by
  cases v <;> decide

theorem lowerMask_eq_shift (v : Variant) : v.lowerMask = BitVec.allOnes v.w >>> v.rUp := by cases v <;> decide

theorem getLsbD_upperMask (v : Variant) {i : Nat} (h : i < v.w) :
    v.upperMask.getLsbD i = decide (v.w - v.rUp ≤ i) := by
  simp [upperMask_eq_shift, h, ← decide_not]

theorem getLsbD_lowerMask (v : Variant) (i : Nat) :
    v.lowerMask.getLsbD i = decide (i < v.w - v.rUp) := by
  rw [lowerMask_eq_shift, BitVec.getLsbD_ushiftRight, BitVec.getLsbD_allOnes, decide_eq_decide]
  omega

theorem upperMask_or_lowerMask (v : Variant) : v.upperMask ||| v.lowerMask = BitVec.allOnes v.w :=
  BitVec.eq_of_getLsbD_eq fun i hi => by
    rw [BitVec.getLsbD_or, getLsbD_upperMask v hi, getLsbD_lowerMask v i, BitVec.getLsbD_allOnes]
    simp only [hi, decide_true, Bool.or_eq_true, decide_eq_true_eq]
    exact le_or_gt _ _

theorem upperMask_and_lowerMask (v : Variant) : v.upperMask &&& v.lowerMask = 0 :=
  BitVec.eq_of_getLsbD_eq fun i hi => by
    rw [BitVec.getLsbD_and, getLsbD_upperMask v hi, getLsbD_lowerMask v i]
    simp

/-! ### Runs of draws -/

/-- Draws that stay below N take the vector's words in order and leave the vector (R142). -/
theorem drawMany_below {v : Variant} (n : Nat) (g : Gen v) (h : cursorIndex g + n ≤ v.n) :
    drawMany n g =
      ((List.range' (cursorIndex g) n).map fun k => temper (mtRead g.mt k), setCursor g (cursorIndex g + n)) := by
  induction n generalizing g with
  | zero => simp [setCursor_cursorIndex]
  | succ n ih =>
    have hc : cursorIndex (setCursor g (cursorIndex g + 1)) = cursorIndex g + 1 :=
      cursorIndex_setCursor g (by have := n_lt v; omega)
    rw [drawMany_succ, draw_of_lt (by omega), ih _ (by rw [hc]; omega), hc, List.range'_succ]
    simp [setCursor, Nat.add_assoc, Nat.add_comm 1 n]

/-- A run of at most N draws from cursor = N takes the first words of the twisted vector (R142, R145). -/
theorem drawMany_regenerates {v : Variant} {n : Nat} {g : Gen v} (hc : cursorIndex g = v.n) (h : n ≤ v.n) :
    (drawMany n g).1 = (List.range n).map fun k => temper (mtRead (twistMt g.mt) k) := by
  cases n with
  | zero => rfl
  | succ n =>
    have h1 : cursorIndex (setCursor { g with mt := twistMt g.mt } 1) = 1 :=
      cursorIndex_setCursor _ (by have := n_lt v; omega)
    rw [drawMany_succ, draw_of_ge hc.ge (by simp [hc, Variant.sentinel]), drawMany_below n _ (by rw [h1]; omega), h1,
      List.range_eq_range', List.range'_succ]
    rfl

/-! ### The first words after Twist -/

/-- Word k after Twist is what step k wrote, from the words as the steps before it left them (R130). -/
theorem mtRead_twistMt {v : Variant} (mt : Mt v) {k : Nat} (hk : k < v.n) :
    mtRead (twistMt mt) k = mtRead (twistStep k (forRange 0 k twistStep mt)) k := by
  have cut : twistMt mt = forRange (k + 1) (v.n - (k + 1)) twistStep (forRange 0 (k + 1) twistStep mt) := by
    rw [twistMt, show v.n = (k + 1) + (v.n - (k + 1)) by omega, forRange_add]
    simp
  rw [cut, mtRead_forRange_outside mtRead_twistStep_ne _ (.inl (Nat.lt_succ_self k)), forRange_succ, Nat.zero_add]

/-- The first N - M words after Twist come from old words only (R131). -/
theorem mtRead_twistMt_of_lt {v : Variant} (mt : Mt v) {k : Nat} (hk : k + v.m < v.n) :
    mtRead (twistMt mt) k = twistWord (mtRead mt k) (mtRead mt (k + 1)) (mtRead mt (k + v.m)) := by
  have hm : 0 < v.m := by cases v <;> decide
  have old {j : Nat} (hj : k ≤ j) : mtRead (forRange 0 k twistStep mt) j = mtRead mt j :=
    mtRead_forRange_outside mtRead_twistStep_ne mt (.inr (by omega))
  rw [mtRead_twistMt mt (by omega), twistStep, mtRead_mtWrite_same _ (by omega),
    Nat.mod_eq_of_lt (show k + 1 < v.n by omega), Nat.mod_eq_of_lt hk, old (Nat.le_refl k), old (by omega),
    old (by omega)]

/-- The first N - M draws after SEED, from the words of ScalarInit's recurrence alone. -/
theorem drawMany_seedGen {v : Variant} (seed : Word v) (g : Gen v) {n : Nat} (hn : n + v.m ≤ v.n) :
    (drawMany n (seedGen seed g)).1 = (List.range n).map fun k =>
      temper (twistWord (scalarWord seed k) (scalarWord seed (k + 1)) (scalarWord seed (k + v.m))) := by
  have hc : cursorIndex (seedGen seed g) = v.n := cursorIndex_setCursor _ (n_lt v)
  have hm : 0 < v.m := by cases v <;> decide
  rw [drawMany_regenerates hc (by omega), seedGen_mt]
  refine List.map_congr_left fun k hk => ?_
  have hk : k < n := List.mem_range.mp hk
  rw [mtRead_twistMt_of_lt _ (by omega), mtRead_scalarInit _ _ (by omega), mtRead_scalarInit _ _ (by omega),
    mtRead_scalarInit _ _ (by omega)]

/-! ### The obligations -/

/-- Settles O1, variant by variant: each parameter is the value of R6's table. -/
theorem parametersOfSource : Obligations.ParametersOfSource := by
  unfold Obligations.ParametersOfSource
  exact ⟨by decide, by decide⟩

/-- Settles O2, variant by variant: each constant is the value of R8's table. -/
theorem parametersOfReference : Obligations.ParametersOfReference := by
  unfold Obligations.ParametersOfReference
  exact ⟨by decide, by decide⟩

/-- Settles O3: the masks are all ones shifted from either end, which gives their bits, and the bits their OR and
AND. -/
theorem masksSplitTheWord : Obligations.MasksSplitTheWord := by
  unfold Obligations.MasksSplitTheWord
  exact ⟨fun v i hi => ⟨getLsbD_upperMask v hi, getLsbD_lowerMask v i⟩,
    fun v => ⟨upperMask_or_lowerMask v, upperMask_and_lowerMask v⟩, rfl, rfl, rfl, rfl⟩

/-- Settles O38: the draws come from the recurrence's words, which the kernel evaluates. -/
theorem sourceVectors : Obligations.SourceVectors := by
  unfold Obligations.SourceVectors
  constructor <;> intro g
  all_goals
    rw [drawMany_seedGen 1 g (by decide)]
    simp only [scalarWord_eval]
    decide +kernel

end Sys2Proof.Machine
end

section
/-! Proofs for spec/10_state.md: the cursor register of R33, the invariant of R34, the unobservable words of R35, and
word 0 of R36. R34 and R35 each rest on one lemma about a command's effect on its block, `effectOf_inv` and
`effectOf_indist`, which a step carries over to the system in the cases that `step_situations` lists. -/

namespace Sys2Proof.Machine

/-! ### A scheduled command, by the length of its payload -/

section scheduled

variable {s : State} {p : Nat} {rest : List Nat} {v : Variant} {b : Block v} {w : CmdWord} {payload : List (Word v)}
  {more : List (HostEvent v)} {i : Instr}

/-- The served port is current, whatever its block has become. -/
theorem current_served (hp : s.insts[p]? = some ⟨v, b⟩) (J : Instance) :
    (State.setCurrent { s with port := p, schedule := rest } J).current = some J :=
  current_setCurrent_of_current (s := { s with port := p, schedule := rest }) hp

/-- With its payload complete, a scheduled command takes effect on its block and is answered OK (R73, R78). -/
theorem step_command_complete (hs : s.schedule = p :: rest) (hp : s.insts[p]? = some ⟨v, b⟩)
    (hh : b.host = .command w payload :: more) (hi : decode w = .ok i) (hd : payload.length = payloadWords i) :
    step s = .next (State.setCurrent { s with port := p, schedule := rest }
      ⟨v, respond { b with gen := (effectOf i v payload b.gen).1, din := payload, host := more } .ok
        (effectOf i v payload b.gen).2⟩) := by
  rw [step_command hs hp hh hi, exec_eq (current_served hp _) hd, setCurrent_setCurrent]

/-- With a payload of another length the model gives a scheduled command no meaning (R172; log entry 7). -/
theorem step_command_payloadCount (hs : s.schedule = p :: rest) (hp : s.insts[p]? = some ⟨v, b⟩)
    (hh : b.host = .command w payload :: more) (hi : decode w = .ok i) (hd : payload.length ≠ payloadWords i) :
    step s = .refused .payloadCount := by
  rw [step_command hs hp hh hi, exec_eq_runCommand]
  simp [runCommand, current_served hp, hd]

end scheduled

/-! ### The invariant of R34 and R38 -/

theorem Gen.inv_setCursor {v : Variant} (g : Gen v) {i : Nat} (h : 1 ≤ i ∧ i ≤ v.n ∨ i = v.sentinel) :
    Gen.Inv (setCursor g i) := by
  have hi : i < 2 ^ v.cursorBits := by have := sentinel_lt v; simp only [Variant.sentinel] at this h; omega
  simpa only [Gen.Inv, cursorIndex_setCursor g hi] using h

/-- A draw leaves a cursor in 1..N, whatever the cursor was (R142). -/
theorem draw_inv {v : Variant} (g : Gen v) : Gen.Inv (draw g).1 := by
  have hn := n_pos v
  by_cases hlt : cursorIndex g < v.n
  · rw [draw_of_lt hlt]
    exact Gen.inv_setCursor _ (.inl ⟨by omega, hlt⟩)
  · by_cases hs : cursorIndex g = v.sentinel
    · rw [draw_of_sentinel hs]
      exact Gen.inv_setCursor _ (.inl ⟨Nat.le_refl 1, hn⟩)
    · rw [draw_of_ge (Nat.le_of_not_lt hlt) hs]
      exact Gen.inv_setCursor _ (.inl ⟨Nat.le_refl 1, hn⟩)

/-- Every command leaves a cursor that R34 allows, from any state of its block. -/
theorem effectOf_inv (i : Instr) {v : Variant} (payload : List (Word v)) (g : Gen v) :
    Gen.Inv (effectOf i v payload g).1 := by
  have seeded (x : Gen v) : Gen.Inv (setCursor x v.n) := Gen.inv_setCursor x (.inl ⟨n_pos v, Nat.le_refl _⟩)
  cases i with
  | init => exact Gen.inv_setCursor g (.inr rfl)
  | seed => exact seeded _
  | seedArray len => cases payload <;> exact seeded _
  | next => exact draw_inv g

/-- A block that keeps the invariant takes its place in a system that does. -/
theorem setCurrent_inv {s : State} {I : Instance} (hs : s.Inv) (hI : I.Inv) : (s.setCurrent I).Inv :=
  fun J hJ => (List.mem_or_eq_of_mem_set hJ).elim (hs J) fun e => e ▸ hI

/-- A step of the hardware keeps the invariant (R34, R38). -/
theorem hwStep_inv {s t : State} (hs : s.Inv) (h : hwStep s = .next t) : t.Inv := by
  rcases step_situations s with
    hsch | ⟨p, rest, hsch, hp | ⟨v, b, hp, hh | ⟨e, more, hh, he | ⟨w, payload, rfl, ⟨i, hi⟩ | ⟨x, hi⟩⟩⟩⟩⟩
  · cases (hwStep_of_next (step_idle hsch)).symm.trans h
    exact hs
  · cases (hwStep_of_refused (step_noPort hsch hp)).symm.trans h
  · cases (hwStep_of_next (step_quiet hsch hp hh)).symm.trans h
    exact hs
  · cases (hwStep_of_next (step_reset hsch hp hh he)).symm.trans h
    exact setCurrent_inv hs ⟨.inr (cursorIndex_reset ..), rfl⟩
  · by_cases hd : payload.length = payloadWords i
    · cases (hwStep_of_next (step_command_complete hsch hp hh hi hd)).symm.trans h
      exact setCurrent_inv hs ⟨effectOf_inv i payload b.gen, rfl⟩
    · cases (hwStep_of_refused (step_command_payloadCount hsch hp hh hi hd)).symm.trans h
  · cases (hwStep_of_illegal (step_illegal hsch hp hh hi)).symm.trans h
    obtain ⟨hcursor, -⟩ := hs _ (List.mem_of_getElem? hp)
    exact setCurrent_inv hs ⟨hcursor, rfl⟩

/-! ### What R35 leaves unobservable, for one block -/

theorem Gen.indist_of_sentinel {v : Variant} {g h : Gen v} (hg : cursorIndex g = v.sentinel)
    (hh : cursorIndex h = v.sentinel) : Gen.Indist g h :=
  ⟨cursor_eq_of_index (hg.trans hh.symm), fun hne => absurd hg hne⟩

/-- States of a block that no command tells apart are equal, or both never seeded. -/
theorem Gen.Indist.eq_or_sentinel {v : Variant} {g h : Gen v} (e : Gen.Indist g h) :
    g = h ∨ cursorIndex g = v.sentinel ∧ cursorIndex h = v.sentinel := by
  obtain ⟨hc, hm⟩ := e
  by_cases hs : cursorIndex g = v.sentinel
  · exact .inr ⟨hs, (congrArg BitVec.toNat hc).symm.trans hs⟩
  · exact .inl (gen_ext (hm hs) hc)

theorem seedGen_forgets {v : Variant} (seed : Word v) (g h : Gen v) : seedGen seed g = seedGen seed h :=
  gen_ext (scalarInit_forgets seed g.mt h.mt) rfl

/-- Seeding by a key forgets vector and cursor (R108). -/
theorem seedArrayGen_forgets {v : Variant} (key : List (Word v)) (g h : Gen v) :
    seedArrayGen key g = seedArrayGen key h := by
  cases key with
  | nil => exact seedGen_forgets 0 g h
  | cons k ks => exact gen_ext (by simp [seedArrayGen, arrayInit, arrayPass1_forgets _ g.mt h.mt]) rfl

/-- The first draw of a never-seeded block forgets its words, for the default seed overwrites them (R143). -/
theorem draw_forgets_unseeded {v : Variant} {g h : Gen v} (hg : cursorIndex g = v.sentinel)
    (hh : cursorIndex h = v.sentinel) : draw g = draw h := by
  rw [draw_of_sentinel hg, draw_of_sentinel hh, scalarInit_forgets _ g.mt h.mt]
  rfl

/-- No command tells states apart that differ in unseeded words alone: the answers are the same, and the states after
differ in such words alone (R35). -/
theorem effectOf_indist (i : Instr) {v : Variant} (payload : List (Word v)) {g h : Gen v} (e : Gen.Indist g h) :
    Gen.Indist (effectOf i v payload g).1 (effectOf i v payload h).1 ∧
      (effectOf i v payload g).2 = (effectOf i v payload h).2 := by
  have same {x y : Gen v × Word v} (exy : x = y) : Gen.Indist x.1 y.1 ∧ x.2 = y.2 := exy ▸ ⟨⟨rfl, fun _ => rfl⟩, rfl⟩
  rcases e.eq_or_sentinel with rfl | ⟨hg, hh⟩
  · exact same rfl
  cases i with
  | init =>
    exact ⟨Gen.indist_of_sentinel (cursorIndex_setCursor g (sentinel_lt v)) (cursorIndex_setCursor h (sentinel_lt v)),
      rfl⟩
  | seed => exact same (congrArg (·, 0) (seedGen_forgets (keyWord payload 0) g h))
  | seedArray len => exact same (congrArg (·, 0) (seedArrayGen_forgets payload g h))
  | next => exact same (draw_forgets_unseeded hg hh)

/-! ### What R35 leaves unobservable, for a system -/

theorem forall₂_getElem? {α β : Type} {R : α → β → Prop} {l : List α} {m : List β} (h : List.Forall₂ R l m) (p : Nat) :
    Option.Rel R l[p]? m[p]? := by
  induction h generalizing p with
  | nil => exact .none
  | cons hab _ ih =>
    cases p with
    | zero => exact .some hab
    | succ p => simpa using ih p

theorem forall₂_set {α β : Type} {R : α → β → Prop} {l : List α} {m : List β} (h : List.Forall₂ R l m) (p : Nat)
    {a : α} {b : β} (hab : R a b) : List.Forall₂ R (l.set p a) (m.set p b) := by
  induction h generalizing p with
  | nil => exact .nil
  | cons hcd htail ih =>
    cases p with
    | zero => exact .cons hab htail
    | succ p => exact .cons hcd (ih p)

/-- Two outcomes that no host tells apart. The hardware's step goes on after an illegal word (R165), so
a fault is not among them. -/
inductive AnswersAlike : Host.Outcome State Fault Refusal → Host.Outcome State Fault Refusal → Prop
  | next {s t : State} (h : State.Indist s t) : AnswersAlike (.next s) (.next t)
  | refused (r : Refusal) : AnswersAlike (.refused r) (.refused r)

section related

variable {s t : State} (h : State.Indist s t)

include h

theorem indist_none {p : Nat} (hp : s.insts[p]? = none) : t.insts[p]? = none := by
  have hr := forall₂_getElem? h.1 p
  rw [hp] at hr
  generalize t.insts[p]? = o at hr ⊢
  cases hr
  rfl

theorem indist_some {p : Nat} {v : Variant} {b : Block v} (hp : s.insts[p]? = some ⟨v, b⟩) :
    ∃ c : Block v, t.insts[p]? = some ⟨v, c⟩ ∧ Gen.Indist b.gen c.gen ∧ b.host = c.host ∧ b.received = c.received := by
  have hr := forall₂_getElem? h.1 p
  rw [hp] at hr
  generalize t.insts[p]? = o at hr ⊢
  obtain ⟨v', b', c, hb, rfl, hgen, -, hhost, hreceived⟩ := hr
  cases hb
  exact ⟨c, rfl, hgen, hhost, hreceived⟩

/-- Serving a port of each system leaves them alike when what the port's blocks come to is alike. -/
theorem indist_served (p : Nat) (rest : List Nat) {v : Variant} {b c : Block v} (hgen : Gen.Indist b.gen c.gen)
    (hdin : b.din = c.din) (hhost : b.host = c.host) (hreceived : b.received = c.received) :
    State.Indist (State.setCurrent { s with port := p, schedule := rest } ⟨v, b⟩)
      (State.setCurrent { t with port := p, schedule := rest } ⟨v, c⟩) :=
  ⟨forall₂_set h.1 p ⟨v, b, c, rfl, rfl, hgen, hdin, hhost, hreceived⟩, rfl, rfl⟩

/-- One step of the hardware tells no more of two systems than was known before (R35). -/
theorem hwStep_alike : AnswersAlike (hwStep s) (hwStep t) := by
  have hsched : s.schedule = t.schedule := h.2.2
  rcases step_situations s with hsch | ⟨p, rest, hsch, hp | ⟨v, b, hp, hsit⟩⟩
  · rw [hwStep_of_next (step_idle hsch), hwStep_of_next (step_idle (hsched ▸ hsch))]
    exact .next h
  · rw [hwStep_of_refused (step_noPort hsch hp), hwStep_of_refused (step_noPort (hsched ▸ hsch) (indist_none h hp))]
    exact .refused _
  have htch : t.schedule = p :: rest := hsched ▸ hsch
  obtain ⟨c, hq, hgen, hhost, hreceived⟩ := indist_some h hp
  rcases hsit with hh | ⟨e, more, hh, he | ⟨w, payload, rfl, ⟨i, hi⟩ | ⟨x, hi⟩⟩⟩
  all_goals have hk := hhost.symm.trans hh
  · rw [hwStep_of_next (step_quiet hsch hp hh), hwStep_of_next (step_quiet htch hq hk)]
    exact .next ⟨h.1, rfl, rfl⟩
  · rw [hwStep_of_next (step_reset hsch hp hh he), hwStep_of_next (step_reset htch hq hk he)]
    exact .next (indist_served h p rest (Gen.indist_of_sentinel (cursorIndex_reset ..) (cursorIndex_reset ..)) rfl rfl
      hreceived)
  · by_cases hd : payload.length = payloadWords i
    · rw [hwStep_of_next (step_command_complete hsch hp hh hi hd),
        hwStep_of_next (step_command_complete htch hq hk hi hd)]
      obtain ⟨hgen', hdout⟩ := effectOf_indist i payload hgen
      exact .next (indist_served h p rest hgen' rfl rfl (by rw [respond_received, respond_received, hreceived, hdout]))
    · rw [hwStep_of_refused (step_command_payloadCount hsch hp hh hi hd),
        hwStep_of_refused (step_command_payloadCount htch hq hk hi hd)]
      exact .refused _
  · rw [hwStep_of_illegal (step_illegal hsch hp hh hi), hwStep_of_illegal (step_illegal htch hq hk hi)]
    exact .next (indist_served h p rest hgen rfl rfl
      (by rw [takeIllegalCommand_received, takeIllegalCommand_received, hreceived]))

end related

/-- So does any number of steps. -/
theorem hwRun_alike (k : Nat) {s t : State} (h : State.Indist s t) : AnswersAlike (hwRun k s) (hwRun k t) := by
  induction k generalizing s t with
  | zero => exact .next h
  | succ k ih =>
    have hstep := hwStep_alike h
    rw [hwRun, hwRun]
    generalize hwStep s = x, hwStep t = y at hstep ⊢
    cases hstep with
    | next h' => exact ih h'
    | refused r => exact .refused r

/-! ### Word 0 after SEED_ARRAY -/

theorem topBit_eq (v : Variant) : v.topBit = BitVec.ofNat v.w (2 ^ (v.w - 1)) := by cases v <;> rfl

/-- Word 0 is the assignment of R105, or the seed 0 of the empty key (R107). -/
theorem mtRead_seedArrayGen_zero {v : Variant} (key : List (Word v)) (g : Gen v) :
    mtRead (seedArrayGen key g).mt 0 = if key = [] then 0 else BitVec.ofNat v.w (2 ^ (v.w - 1)) := by
  by_cases hk : key = []
  · rw [hk, seedArrayGen_nil, seedGen_mt, mtRead_scalarInit 0 g.mt (n_pos v), if_pos rfl, scalarWord]
  · rw [seedArrayGen_cons hk, setCursor_mt, mtRead_arrayInit_zero, if_neg hk, topBit_eq]

/-! ### The obligations -/

/-- Settles O42: the step of the hardware keeps the invariant, and it is both the step of the model and the state a
fault carries. -/
theorem invariantKeptByStep : Obligations.InvariantKeptByStep := by
  unfold Obligations.InvariantKeptByStep
  exact fun s hs => ⟨fun t ht => hwStep_inv hs (hwStep_of_next ht), fun w t ht => hwStep_inv hs (hwStep_of_illegal ht),
    fun t ht => hwStep_inv hs ht⟩

/-- Settles O44, by induction on the number of steps, `State.Indist` being kept by each. -/
theorem unseededWordsUnobservable : Obligations.UnseededWordsUnobservable := by
  unfold Obligations.UnseededWordsUnobservable
  intro k s t h
  have hrun := hwRun_alike k h
  generalize hwRun k s = x, hwRun k t = y at hrun ⊢
  cases hrun with
  | next h' => exact ⟨fun s' e => by cases e; exact ⟨_, rfl, h'⟩, fun r e => nomatch e⟩
  | refused r => exact ⟨fun s' e => (nomatch e), fun r' e => e⟩

/-- Settles O27: a SEED_ARRAY that completes leaves the vector of `seedArrayGen`. -/
theorem seedArrayTopWord : Obligations.SeedArrayTopWord := by
  unfold Obligations.SeedArrayTopWord
  rintro s t v b c key hc rfl h ht
  rw [exec_eq hc rfl] at h
  cases h
  rw [current_setCurrent_of_current hc] at ht
  cases ht
  exact mtRead_seedArrayGen_zero b.din b.gen

/-- Settles O4: the widths variant by variant, and the cursor read back since N+1 fits. -/
theorem cursorRegisterWidth : Obligations.CursorRegisterWidth := by
  unfold Obligations.CursorRegisterWidth
  exact ⟨rfl, rfl, fun v => ⟨sentinel_lt v, by cases v <;> decide⟩,
    fun v g i hi => cursorIndex_setCursor g (Nat.lt_of_le_of_lt hi (sentinel_lt v))⟩

end Sys2Proof.Machine
end

section
/-! Proofs for spec/20_memory.md: the byte fill of R52. A word gives W/8 bytes, so byte `b` of all the results' bytes
in a row lies in result number `b / (W/8)`, and the commands issued draw words enough for it. -/

namespace Sys2Proof.Machine

/-- In equally long blocks laid end to end, element `c * q + r` is element `r` of block `q`. -/
theorem getElem?_flatMap_mul_add {α β : Type} {f : α → List β} {c : Nat} (hf : ∀ x, (f x).length = c) (xs : List α)
    (q : Nat) {r : Nat} (hr : r < c) : (xs.flatMap f)[c * q + r]? = xs[q]?.bind fun x => (f x)[r]? := by
  induction xs generalizing q with
  | nil => rfl
  | cons x xs ih =>
    rw [List.flatMap_cons]
    cases q with
    | zero =>
      rw [Nat.mul_zero, Nat.zero_add, List.getElem?_append_left (by rwa [hf x])]
      rfl
    | succ q =>
      rw [show c * (q + 1) + r = c + (c * q + r) by rw [Nat.mul_succ]; omega,
        List.getElem?_append_right (by rw [hf x]; exact Nat.le_add_right ..), hf x, Nat.add_sub_cancel_left, ih q]
      rfl

theorem wordBytes_pos (v : Variant) : 0 < wordBytes v := by cases v <;> decide

theorem byteOf_eq_ofNat {v : Variant} (x : Word v) (b : Nat) :
    byteOf x b = BitVec.ofNat 8 (x.toNat / 2 ^ (8 * b)) := by
  rw [byteOf, BitVec.extractLsb', Nat.shiftRight_eq_div_pow]

/-! ### Words enough for every byte -/

/-- The result that holds byte `b` of a fill is among those drawn. -/
theorem div_wordBytes_lt_fillDraws (v : Variant) {b n : Nat} (h : b < n) : b / wordBytes v < fillDraws v n :=
  calc b / wordBytes v + 1 = (b + wordBytes v) / wordBytes v := (Nat.add_div_right b (wordBytes_pos v)).symm
    _ ≤ (n + wordBytes v - 1) / wordBytes v := Nat.div_le_div_right (by omega)

theorem le_fillDraws_mul_wordBytes (v : Variant) (n : Nat) : n ≤ fillDraws v n * wordBytes v :=
  le_of_forall_lt fun _ hb => (Nat.div_lt_iff_lt_mul (wordBytes_pos v)).1 (div_wordBytes_lt_fillDraws v hb)

/-! ### The buffer -/

theorem fillBytes_length {v : Variant} {n : Nat} {results : List (Word v)} (h : n ≤ results.length * wordBytes v) :
    (fillBytes n results).length = n := by
  simpa [fillBytes, List.length_flatMap] using h

/-- Byte `b` of the buffer is a byte of one result (R52). -/
theorem fillBytes_getElem? {v : Variant} {b n : Nat} (h : b < n) (results : List (Word v)) :
    (fillBytes n results)[b]? = results[b / wordBytes v]?.map fun x => byteOf x (b % wordBytes v) := by
  have hr : b % wordBytes v < wordBytes v := Nat.mod_lt b (wordBytes_pos v)
  have hbyte := getElem?_flatMap_mul_add (f := fun x => (List.range (wordBytes v)).map (byteOf x)) (by simp) results
    (b / wordBytes v) hr
  rw [Nat.div_add_mod] at hbyte
  rw [fillBytes, List.getElem?_take_of_lt h, hbyte, Option.map_eq_bind]
  simp only [List.getElem?_map, List.getElem?_range hr]
  rfl

@[simp] theorem fillCommands_length (v : Variant) (n : Nat) : (fillCommands v n).length = fillDraws v n :=
  List.length_replicate

theorem fill_eq {v : Variant} (n : Nat) (g : Gen v) :
    fill n g = (fillBytes n (drawMany (fillDraws v n) g).1, (drawMany (fillDraws v n) g).2) := rfl

/-! ### The obligation -/

/-- Settles O47: the results drawn are as many as the commands, hence enough for `n` bytes, and each byte is cut from
its result. -/
theorem byteFill : Obligations.ByteFill := by
  unfold Obligations.ByteFill
  intro v n g
  rw [fillCommands_length, fill_eq]
  refine ⟨rfl, fun e he => List.eq_of_mem_replicate he, fillBytes_length ?_, fun b hb => ?_, rfl⟩
  · rw [drawMany_length]
    exact le_fillDraws_mul_wordBytes v n
  · have hlt : b / wordBytes v < (drawMany (fillDraws v n) g).1.length := by
      rw [drawMany_length]
      exact div_wordBytes_lt_fillDraws v hb
    refine ⟨_, List.getElem?_eq_getElem hlt, ?_⟩
    rw [fillBytes_getElem? hb, List.getElem?_eq_getElem hlt, Option.map_some, byteOf_eq_ofNat]
    rfl

end Sys2Proof.Machine
end

section
/-! Proofs for spec/40_seeding.md: a seeding command forgets the state before it (R108). -/

namespace Sys2Proof.Machine

/-- The effect of a seeding command reads its payload and nothing of the old vector and cursor (R108). -/
theorem effectOf_seeding_forgets {i : Instr} (hi : i = .seed ∨ ∃ len, i = .seedArray len) {v : Variant}
    (payload : List (Word v)) (g h : Gen v) : effectOf i v payload g = effectOf i v payload h := by
  rcases hi with rfl | ⟨len, rfl⟩
  · exact congrArg (·, 0) (seedGen_forgets (keyWord payload 0) g h)
  · exact congrArg (·, 0) (seedArrayGen_forgets payload g h)

/-! ### The obligation -/

/-- Settles O28: both commands complete with `effectOf`, which forgets the states they ran in, so the draws after
them start from one and the same state. -/
theorem seedingIsDeterminedByPayload : Obligations.SeedingIsDeterminedByPayload := by
  unfold Obligations.SeedingIsDeterminedByPayload
  intro i s₁ s₂ v b₁ b₂ hi hc₁ hc₂ hdin hlen
  have hgen : (effectOf i v b₁.din b₁.gen).1 = (effectOf i v b₂.din b₂.gen).1 := by
    rw [hdin, effectOf_seeding_forgets hi b₂.din b₁.gen b₂.gen]
  exact ⟨_, _, _, _, exec_eq hc₁ hlen, exec_eq hc₂ (hdin ▸ hlen), current_setCurrent_of_current hc₁,
    current_setCurrent_of_current hc₂, hgen, fun n => congrArg (fun g => (drawMany n g).1) hgen⟩

end Sys2Proof.Machine
end

section
/-! Proofs for spec/41_twist.md: the order of Twist's reads (R131), its shape without wrapping indices (R132), and its
one read of old mt[0] (R133). All three cut the loop of R130 at a step and say where the indices of that step wrap. -/

namespace Sys2Proof.Machine

theorem m_pos (v : Variant) : 0 < v.m := by cases v <;> decide

theorem m_lt_n (v : Variant) : v.m < v.n := by cases v <;> decide

/-! ### Where the indices of R130 wrap -/

theorem succ_mod_n {v : Variant} {k : Nat} (hk : k < v.n) : (k + 1) % v.n = if k + 1 < v.n then k + 1 else 0 := by
  split
  case isTrue h => exact Nat.mod_eq_of_lt h
  case isFalse h => rw [show k + 1 = v.n by omega, Nat.mod_self]

theorem add_m_mod_n {v : Variant} {k : Nat} (hk : k < v.n) :
    (k + v.m) % v.n = if k < v.n - v.m then k + v.m else k + v.m - v.n := by
  have := m_lt_n v
  split
  · exact Nat.mod_eq_of_lt (by omega)
  · rw [Nat.mod_eq_sub_mod (by omega), Nat.mod_eq_of_lt (by omega)]

/-! ### The loop of R130, cut at a step -/

/-- Twist is its first k steps, then the others. -/
theorem twistMt_cut {v : Variant} (mt : Mt v) {k : Nat} (hk : k ≤ v.n) :
    twistMt mt = forRange k (v.n - k) twistStep (forRange 0 k twistStep mt) := by
  have h := forRange_add 0 k (v.n - k) twistStep mt
  rwa [Nat.add_sub_cancel' hk, Nat.zero_add] at h

/-- Step k reads the new word where an earlier step wrote, and the old word elsewhere (R131). -/
theorem mtRead_twistSteps {v : Variant} (mt : Mt v) {k : Nat} (hk : k ≤ v.n) (j : Nat) :
    mtRead (forRange 0 k twistStep mt) j = if j < k then mtRead (twistMt mt) j else mtRead mt j := by
  split
  case isTrue hj => rw [twistMt_cut mt hk, mtRead_forRange_outside mtRead_twistStep_ne _ (.inl hj)]
  case isFalse hj => exact mtRead_forRange_outside mtRead_twistStep_ne mt (.inr (by omega))

/-- Each word after Twist, from the old and new words that R131 names. -/
theorem mtRead_twistMt_eq_twistWord {v : Variant} (mt : Mt v) {k : Nat} (hk : k < v.n) :
    mtRead (twistMt mt) k = twistWord (mtRead mt k)
      (if k + 1 < v.n then mtRead mt (k + 1) else mtRead (twistMt mt) 0)
      (if k < v.n - v.m then mtRead mt (k + v.m) else mtRead (twistMt mt) (k + v.m - v.n)) := by
  have hm := m_pos v
  have hmn := m_lt_n v
  have hnext : mtRead (forRange 0 k twistStep mt) ((k + 1) % v.n) =
      if k + 1 < v.n then mtRead mt (k + 1) else mtRead (twistMt mt) 0 := by
    rw [succ_mod_n hk, mtRead_twistSteps mt hk.le]
    split
    · exact if_neg (by omega)
    · exact if_pos (by omega)
  have hfar : mtRead (forRange 0 k twistStep mt) ((k + v.m) % v.n) =
      if k < v.n - v.m then mtRead mt (k + v.m) else mtRead (twistMt mt) (k + v.m - v.n) := by
    rw [add_m_mod_n hk, mtRead_twistSteps mt hk.le]
    split
    · exact if_neg (by omega)
    · exact if_pos (by omega)
  rw [mtRead_twistMt mt hk, twistStep, mtRead_mtWrite_same _ hk, hnext, hfar, mtRead_twistSteps mt hk.le,
    if_neg (Nat.lt_irrefl k)]

/-- mag of R130 by bit 0 of y. -/
theorem twistMag_eq_getLsbD {v : Variant} (y : Word v) : twistMag y = if y.getLsbD 0 then v.matrixA else 0 := by
  have hbit : y &&& 1 = 1 ↔ y.getLsbD 0 = true := by
    rw [← BitVec.toNat_inj, BitVec.toNat_and, BitVec.getLsbD, Nat.testBit_zero, decide_eq_true_eq,
      show (1 : Word v).toNat = 1 by cases v <;> rfl, Nat.and_one_is_mod]
  simp only [twistMag, hbit]

/-! ### The steps of R132 -/

/-- No index of the first sub-loop wraps. -/
theorem twistStep_of_lt {v : Variant} {k : Nat} (hk : k < v.n - v.m) (mt : Mt v) :
    twistStep k mt = mtWrite mt k (twistWord (mtRead mt k) (mtRead mt (k + 1)) (mtRead mt (k + v.m))) := by
  have := m_pos v
  rw [twistStep, succ_mod_n (by omega), add_m_mod_n (by omega), if_pos (by omega), if_pos hk]

/-- In the second sub-loop the far index alone wraps. -/
theorem twistStep_of_ge {v : Variant} {k : Nat} (hk : v.n - v.m ≤ k) (hn : k + 1 < v.n) (mt : Mt v) :
    twistStep k mt = mtWrite mt k (twistWord (mtRead mt k) (mtRead mt (k + 1)) (mtRead mt (k + v.m - v.n))) := by
  rw [twistStep, succ_mod_n (by omega), add_m_mod_n (by omega), if_pos hn, if_neg (by omega)]

/-- The final step crosses the boundary with both indices. -/
theorem twistStep_last {v : Variant} (mt : Mt v) :
    twistStep (v.n - 1) mt =
      mtWrite mt (v.n - 1) (twistWord (mtRead mt (v.n - 1)) (mtRead mt 0) (mtRead mt (v.m - 1))) := by
  have hm := m_pos v
  have hmn := m_lt_n v
  rw [twistStep, succ_mod_n (by omega), add_m_mod_n (by omega), if_neg (by omega), if_neg (by omega),
    show v.n - 1 + v.m - v.n = v.m - 1 by omega]

theorem twistMt_eq_twistSplit {v : Variant} (mt : Mt v) : twistMt mt = twistSplit mt := by
  have hm := m_pos v
  have hmn := m_lt_n v
  have hlow : forRange 0 (v.n - v.m) twistStep mt = forRange 0 (v.n - v.m)
      (fun k x => mtWrite x k (twistWord (mtRead x k) (mtRead x (k + 1)) (mtRead x (k + v.m)))) mt :=
    forRange_congr fun k x hk => twistStep_of_lt (by omega) x
  have hhigh (low : Mt v) : forRange (v.n - v.m) (v.m - 1) twistStep low = forRange (v.n - v.m) (v.m - 1)
      (fun k x => mtWrite x k (twistWord (mtRead x k) (mtRead x (k + 1)) (mtRead x (k + v.m - v.n)))) low :=
    forRange_congr fun k x hk => twistStep_of_ge (Nat.le_add_right ..) (by omega) x
  rw [twistMt_cut mt (Nat.sub_le v.n v.m), show v.n - (v.n - v.m) = v.m - 1 + 1 by omega, forRange_succ,
    show v.n - v.m + (v.m - 1) = v.n - 1 by omega, twistStep_last, hlow, hhigh, twistSplit]

/-! ### What R133 says of old mt[0] -/

theorem mtWrite_mtWrite {v : Variant} (mt : Mt v) (i : Nat) (x y : Word v) :
    mtWrite (mtWrite mt i x) i y = mtWrite mt i y :=
  mt_ext fun j _ => by simp only [mtRead_mtWrite]; split <;> rfl

/-- The upper part is all that R130 takes of mt[k]. -/
theorem twistWord_congr_upper {v : Variant} {a b : Word v} (h : a &&& v.upperMask = b &&& v.upperMask)
    (lo far : Word v) : twistWord a lo far = twistWord b lo far := by
  simp only [twistWord, twistJoin, h]

/-- Step 0 overwrites mt[0], of which it reads the upper part alone. -/
theorem twistStep_zero_mtWrite {v : Variant} (mt : Mt v) {x : Word v}
    (h : x &&& v.upperMask = mtRead mt 0 &&& v.upperMask) : twistStep 0 (mtWrite mt 0 x) = twistStep 0 mt := by
  have hm := m_pos v
  have hmn := m_lt_n v
  have hx (lo far : Word v) : twistWord (mtRead (mtWrite mt 0 x) 0) lo far = twistWord (mtRead mt 0) lo far := by
    rw [mtRead_mtWrite_same mt (n_pos v)]
    exact twistWord_congr_upper h lo far
  rw [twistStep_of_lt (by omega), twistStep_of_lt (by omega), mtWrite_mtWrite, hx, mtRead_mtWrite_ne mt (by omega),
    mtRead_mtWrite_ne mt (by omega)]

/-! ### The obligations -/

/-- Settles O31: each word is the recurrence's, from the words its step reads. -/
theorem twistWordByWord : Obligations.TwistWordByWord := by
  unfold Obligations.TwistWordByWord
  intro v mt k hk
  rw [mtRead_twistMt_eq_twistWord mt hk, twistWord, twistMag_eq_getLsbD]
  rfl

/-- Settles O33: the loop cut at N - M and before its last step, each part with its indices wrapped. -/
theorem twistIsSplitForm : Obligations.TwistIsSplitForm := by
  unfold Obligations.TwistIsSplitForm
  exact ⟨fun v mt => twistMt_eq_twistSplit mt, by decide⟩

/-- Settles O34: after step 0 the two vectors are one, and the other steps go on from there. -/
theorem twistReadsUpperPartOfFirstWord : Obligations.TwistReadsUpperPartOfFirstWord := by
  unfold Obligations.TwistReadsUpperPartOfFirstWord
  refine ⟨fun v mt x h => ?_, fun i hi => ?_, fun i hi => getLsbD_upperMask .mt64 hi⟩
  · have hfirst : forRange 0 1 twistStep (mtWrite mt 0 x) = forRange 0 1 twistStep mt := twistStep_zero_mtWrite mt h
    rw [twistMt_cut (mtWrite mt 0 x) (n_pos v), twistMt_cut mt (n_pos v), hfirst]
  · rw [getLsbD_upperMask .mt32 hi, decide_eq_decide]
    change 31 ≤ i ↔ i = 31
    omega

end Sys2Proof.Machine
end

section
/-! Proofs for spec/42_next_and_tempering.md: the four steps of tempering and, from a seeding command on, where each
draw finds its word (R145). A draw's number n splits as n / N vectors used up and n % N words taken of the next one;
draw by draw the word index advances, and where it would reach N the vector is twisted instead. -/

namespace Sys2Proof.Machine

/-! ### The steps of tempering -/

/-- D of the 32-bit variant keeps every bit, so step 1 is a shift alone (R140). -/
theorem and_temperD_mt32 (y : Word .mt32) : y &&& Variant.mt32.temperD = y := BitVec.and_allOnes

/-! ### Draws from cursor = N -/

/-- Within a vector the next draw's number advances the word index. -/
theorem succ_div_mod_of_lt {n N : Nat} (h : n % N + 1 < N) : (n + 1) / N = n / N ∧ (n + 1) % N = n % N + 1 := by
  rw [Nat.div_mod_unique (by omega)]
  exact ⟨by rw [Nat.add_right_comm, Nat.mod_add_div], h⟩

/-- Past a vector's last word the next draw's number starts at word 0 of the next vector. -/
theorem succ_div_mod_of_eq {n N : Nat} (h : n % N + 1 = N) : (n + 1) / N = n / N + 1 ∧ (n + 1) % N = 0 := by
  rw [Nat.div_mod_unique (by omega)]
  refine ⟨?_, by omega⟩
  calc 0 + N * (n / N + 1) = N * (n / N) + (n % N + 1) := by rw [h, Nat.zero_add, Nat.mul_succ]
    _ = n + 1 := by rw [← Nat.add_assoc, Nat.div_add_mod]

/-- At cursor = N, where a seeding command leaves it, a draw twists and takes word 0. -/
theorem draw_of_eq_n {v : Variant} {g : Gen v} (hc : cursorIndex g = v.n) :
    draw g = (setCursor { g with mt := twistMt g.mt } 1, temper (mtRead (twistMt g.mt) 0)) :=
  draw_of_ge hc.ge (by rw [hc]; exact Nat.ne_of_lt (Nat.lt_succ_self _))

/-- The draw that n others precede takes word n mod N of the vector after n/N + 1 Twists (R145). -/
theorem draw_drawMany {v : Variant} {g : Gen v} (hc : cursorIndex g = v.n) (n : Nat) :
    draw (drawMany n g).2 =
      (setCursor { g with mt := twistMt^[n / v.n + 1] g.mt } (n % v.n + 1),
        temper (mtRead (twistMt^[n / v.n + 1] g.mt) (n % v.n))) := by
  induction n with
  | zero =>
    rw [Nat.zero_div, Nat.zero_mod]
    exact draw_of_eq_n hc
  | succ n ih =>
    have hle : n % v.n + 1 ≤ v.n := Nat.mod_lt n (n_pos v)
    have hg : (drawMany (n + 1) g).2 = setCursor { g with mt := twistMt^[n / v.n + 1] g.mt } (n % v.n + 1) := by
      rw [drawMany_last, ih]
    have hcursor : cursorIndex (setCursor { g with mt := twistMt^[n / v.n + 1] g.mt } (n % v.n + 1)) = n % v.n + 1 :=
      cursorIndex_setCursor _ (Nat.lt_of_le_of_lt hle (n_lt v))
    rw [hg]
    obtain hlt | heq := Nat.lt_or_eq_of_le hle
    · obtain ⟨hdiv, hmod⟩ := succ_div_mod_of_lt hlt
      rw [draw_of_lt (hcursor.trans_lt hlt), hcursor, hdiv, hmod]
      rfl
    · obtain ⟨hdiv, hmod⟩ := succ_div_mod_of_eq heq
      rw [draw_of_eq_n (hcursor.trans heq), hdiv, hmod, Function.iterate_succ_apply' twistMt (n / v.n + 1)]
      rfl

/-! ### The obligations -/

/-- Settles O39: draw number n + 1 is the last of n + 1, and `draw_drawMany` says what it leaves and answers. -/
theorem regenerationBoundary : Obligations.RegenerationBoundary := by
  unfold Obligations.RegenerationBoundary
  intro v g n hc
  have hcursor : n % v.n + 1 < 2 ^ v.cursorBits := Nat.lt_of_le_of_lt (Nat.mod_lt n (n_pos v)) (n_lt v)
  rw [drawMany_last, draw_drawMany hc n]
  refine ⟨?_, rfl, cursorIndex_setCursor _ hcursor⟩
  rw [List.getElem?_append_right (drawMany_length n g).le, drawMany_length, Nat.sub_self, List.getElem?_cons_zero]

/-- Settles O36: the steps with the 32-bit variant's constants, of which D keeps every bit. -/
theorem temper32Steps : Obligations.Temper32Steps := by
  unfold Obligations.Temper32Steps
  refine ⟨fun y => ?_, by decide, by decide, by decide⟩
  rw [temper, and_temperD_mt32]
  rfl

/-- Settles O37: the steps are the definition's with the 64-bit variant's constants. -/
theorem temper64Steps : Obligations.Temper64Steps := by
  unfold Obligations.Temper64Steps
  exact ⟨fun y => rfl, by decide, by decide, by decide⟩

end Sys2Proof.Machine
end

section
/-! Proofs for spec/60_exceptions.md: the illegal words of R161 and R165, and the hosts that keep their duties (R172),
for whom no step fails (R160). -/

namespace Sys2Proof.Machine

/-! ### Runs, step by step -/

theorem run_succ_of_next {M : Host.Core} {s t : M.State} (h : M.step s = .next t) (k : Nat) :
    M.run (k + 1) s = M.run k t := by
  rw [Host.Core.run, h]

theorem hwRun_succ_of_next {s t : State} (h : hwStep s = .next t) (k : Nat) : hwRun (k + 1) s = hwRun k t := by
  rw [hwRun, h]

/-! ### Hosts that keep their duties -/

/-- A dutiful command is legal and comes with exactly its payload words (R172). -/
theorem dutiful_command_iff {v : Variant} {w : CmdWord} {payload : List (Word v)} :
    (HostEvent.command w payload).dutiful = true ↔ ∃ i, decode w = .ok i ∧ payload.length = payloadWords i := by
  rw [HostEvent.dutiful]
  cases decode w <;> simp

/-- The host of an instance keeps its duties (R172). -/
abbrev Instance.Dutiful (I : Instance) : Prop := ∀ e ∈ I.block.host, e.dutiful = true

/-- Serving the first scheduled port keeps the duties when its instance is left to a dutiful host. -/
theorem served_dutiful {s : State} {p : Nat} {rest : List Nat} {I : Instance} (hs : s.Dutiful)
    (hsch : s.schedule = p :: rest) (hI : I.Dutiful) :
    (State.setCurrent { s with port := p, schedule := rest } I).Dutiful := by
  obtain ⟨hhosts, hports⟩ := hs
  refine ⟨fun J hJ => (List.mem_or_eq_of_mem_set hJ).elim (hhosts J) fun e => e ▸ hI, fun q hq => ?_⟩
  rw [setCurrent_insts, List.length_set]
  exact hports q (hsch ▸ List.mem_cons_of_mem p hq)

/-- While the hosts keep their duties a step neither faults nor is refused, and the duties are still kept (R160). -/
theorem step_dutiful {s : State} (hs : s.Dutiful) : ∃ t, step s = .next t ∧ t.Dutiful := by
  have ⟨hhosts, hports⟩ := hs
  rcases step_situations s with hsch | ⟨p, rest, hsch, hp | ⟨v, b, hp, hsit⟩⟩
  · exact ⟨s, step_idle hsch, hs⟩
  · have hlt := hports p (hsch ▸ List.mem_cons_self)
    exact absurd hlt (Nat.not_lt.mpr (List.getElem?_eq_none_iff.mp hp))
  have hb : ∀ e ∈ b.host, e.dutiful = true := hhosts _ (List.mem_of_getElem? hp)
  rcases hsit with hh | ⟨e, more, hh, hact⟩
  · exact ⟨_, step_quiet hsch hp hh, hhosts, fun q hq => hports q (hsch ▸ List.mem_cons_of_mem p hq)⟩
  rw [hh] at hb
  obtain ⟨he, hmore⟩ := List.forall_mem_cons.mp hb
  rcases hact with hreset | ⟨w, payload, rfl, -⟩
  · exact ⟨_, step_reset hsch hp hh hreset, served_dutiful hs hsch hmore⟩
  · obtain ⟨i, hi, hd⟩ := dutiful_command_iff.mp he
    exact ⟨_, step_command_complete hsch hp hh hi hd, served_dutiful hs hsch hmore⟩

/-- So does any number of steps. -/
theorem run_dutiful (k : Nat) {s : State} (hs : s.Dutiful) :
    ∃ t, Host.Core.run Sys2Proof.core k s = .next t ∧ t.Dutiful := by
  induction k generalizing s with
  | zero => exact ⟨s, rfl, hs⟩
  | succ k ih =>
    obtain ⟨t, hstep, ht⟩ := step_dutiful hs
    obtain ⟨u, hrun, hu⟩ := ih ht
    exact ⟨u, (run_succ_of_next (M := Sys2Proof.core) hstep k).trans hrun, hu⟩

/-! ### The obligations -/

/-- Settles O43: a step keeps the duties, by the cases of `step_situations`, and so does any number of steps. -/
theorem dutifulHostsNeverStop : Obligations.DutifulHostsNeverStop := by
  unfold Obligations.DutifulHostsNeverStop
  exact ⟨fun s hs => step_dutiful hs, fun k s hs => run_dutiful k hs⟩

/-- Settles O11: the fault carries the state after `takeIllegalCommand`, and the hardware goes on from it. -/
theorem illegalWordFaults : Obligations.IllegalWordFaults := by
  unfold Obligations.IllegalWordFaults
  intro s p rest v b w payload more x hs hp hh hx
  have hstep := step_illegal hs hp hh hx
  exact ⟨hstep, hwStep_of_illegal hstep⟩

/-- Settles O12: after the first illegal word the port's host has the second one next, and each adds its response. -/
theorem secondIllegalWord : Obligations.SecondIllegalWord := by
  unfold Obligations.SecondIllegalWord
  intro s p rest v b w₁ w₂ payload₁ payload₂ more x₁ x₂ hs hp hh hx₁ hx₂
  have hfirst := hwStep_of_illegal (step_illegal hs hp hh hx₁)
  have hport := current_served (rest := p :: rest) hp
    ⟨v, takeIllegalCommand { b with host := .command w₂ payload₂ :: more }⟩
  have hsecond := hwStep_of_illegal (step_illegal (p := p) (rest := rest) rfl hport rfl hx₂)
  rw [hwRun_succ_of_next hfirst, hwRun_succ_of_next hsecond, hwRun]
  simp [State.setCurrent, takeIllegalCommand, respond]

end Sys2Proof.Machine
end

section
/-! Proofs for spec/30_encoding.md: which words decode to which commands (R71, R72, R75), the codes of R78, and the
transactions that the assembler of R79 writes. All that is said of words comes from `decode_eq_ok_iff`: a word stands
for a command when its two fields are the command's and the command is well-formed. -/

namespace Sys2Proof.Machine

/-! ### Words and their fields -/

theorem opcField_encode (i : Instr) : opcField (encode i) = i.opc := opcField_append i.len i.opc

theorem lenField_encode (i : Instr) : lenField (encode i) = i.len := lenField_append i.len i.opc

theorem encode_eq_of_fields {w : CmdWord} {i : Instr} (hopc : opcField w = i.opc) (hlen : lenField w = i.len) :
    encode i = w := by
  rw [encode, ← hopc, ← hlen, append_fields]

theorem requireNoLen_eq_ok_iff {w : CmdWord} {i j : Instr} : requireNoLen w i = .ok j ↔ i = j ∧ lenField w = 0 := by
  rw [requireNoLen]
  split <;> simp_all

/-- A key length is one that LEN can carry when it is below 2^24 (R11). -/
theorem wellFormed_seedArray_iff {len : Nat} : (Instr.seedArray len).WellFormed ↔ len < 2 ^ 24 := by
  rw [Instr.WellFormed, Instr.wf, decide_eq_true_eq, Config.keyLenMax]
  omega

/-- The words that stand for a command are those with its fields (R71, R72, R75). -/
theorem decode_eq_ok_iff {w : CmdWord} {i : Instr} :
    decode w = .ok i ↔ i.WellFormed ∧ opcField w = i.opc ∧ lenField w = i.len := by
  constructor
  · intro h
    rw [decode] at h
    split_ifs at h with hinit hseed hseedArray hnext
    · obtain ⟨rfl, hlen⟩ := requireNoLen_eq_ok_iff.mp h
      exact ⟨rfl, hinit, hlen⟩
    · obtain ⟨rfl, hlen⟩ := requireNoLen_eq_ok_iff.mp h
      exact ⟨rfl, hseed, hlen⟩
    · cases h
      exact ⟨wellFormed_seedArray_iff.mpr (lenField w).isLt, hseedArray, by simp [Instr.len]⟩
    · obtain ⟨rfl, hlen⟩ := requireNoLen_eq_ok_iff.mp h
      exact ⟨rfl, hnext, hlen⟩
  · rintro ⟨hwf, hopc, hlen⟩
    rw [decode, hopc]
    cases i with
    | init | seed | next => exact requireNoLen_eq_ok_iff.mpr ⟨rfl, hlen⟩
    | seedArray len =>
      have hnat : (lenField w).toNat = len := by
        rw [hlen, Instr.len, BitVec.toNat_ofNat, Nat.mod_eq_of_lt (wellFormed_seedArray_iff.mp hwf)]
      exact congrArg (fun n => Except.ok (Instr.seedArray n)) hnat

theorem decode_encode {i : Instr} (h : i.WellFormed) : decode (encode i) = .ok i :=
  decode_eq_ok_iff.mpr ⟨h, opcField_encode i, lenField_encode i⟩

theorem encode_of_decode {w : CmdWord} {i : Instr} (h : decode w = .ok i) : encode i = w := by
  obtain ⟨-, hopc, hlen⟩ := decode_eq_ok_iff.mp h
  exact encode_eq_of_fields hopc hlen

/-! ### The legal words, counted -/

/-- Legality by the fields (R75). -/
theorem legal_iff_fields (w : CmdWord) : (∃ i, decode w = .ok i) ↔
    ((opcField w = opcInit ∨ opcField w = opcSeed ∨ opcField w = opcNext) ∧ lenField w = 0) ∨
      opcField w = opcSeedArray := by
  simp only [decode_eq_ok_iff]
  constructor
  · rintro ⟨i, -, hopc, hlen⟩
    cases i with
    | init => exact .inl ⟨.inl hopc, hlen⟩
    | seed => exact .inl ⟨.inr (.inl hopc), hlen⟩
    | seedArray len => exact .inr hopc
    | next => exact .inl ⟨.inr (.inr hopc), hlen⟩
  · rintro (⟨hopc | hopc | hopc, hlen⟩ | hopc)
    · exact ⟨.init, rfl, hopc, hlen⟩
    · exact ⟨.seed, rfl, hopc, hlen⟩
    · exact ⟨.next, rfl, hopc, hlen⟩
    · exact ⟨.seedArray (lenField w).toNat, wellFormed_seedArray_iff.mpr (lenField w).isLt, hopc, by simp [Instr.len]⟩

/-- The legal words are the encodings of the well-formed commands. -/
theorem legalWords_eq_image_encode : {w | ∃ i, decode w = .ok i} = encode '' {i : Instr | i.WellFormed} := by
  ext w
  constructor
  · rintro ⟨i, hi⟩
    exact ⟨i, (decode_eq_ok_iff.mp hi).1, encode_of_decode hi⟩
  · rintro ⟨i, hi, rfl⟩
    exact ⟨i, decode_encode hi⟩

/-- Different well-formed commands have different words, since each word decodes to its command. -/
theorem encode_injOn : Set.InjOn encode {i : Instr | i.WellFormed} := fun i hi j hj h => by
  have hdecode : Except.ok i = decode (encode j) := h ▸ (decode_encode hi).symm
  exact Except.ok.inj (hdecode.trans (decode_encode hj))

/-- The well-formed commands: the three without LEN, and SEED_ARRAY with each length that LEN can carry. -/
theorem wellFormed_eq_union :
    {i : Instr | i.WellFormed} = ({.init, .seed, .next} : Set Instr) ∪ Instr.seedArray '' Set.Iio (2 ^ 24) := by
  ext i
  cases i with
  | seedArray len => simpa using wellFormed_seedArray_iff
  | init | seed | next => simp [Instr.WellFormed, Instr.wf]

theorem ncard_wellFormed : {i : Instr | i.WellFormed}.ncard = 3 + 2 ^ 24 := by
  have hthree : ({.init, .seed, .next} : Set Instr).ncard = 3 := by
    rw [Set.ncard_eq_toFinset_card']; rfl
  have hkeys : (Instr.seedArray '' Set.Iio (2 ^ 24)).ncard = 2 ^ 24 := by
    rw [Set.ncard_image_of_injective _ fun a b h => Instr.seedArray.inj h, Set.ncard_Iio_nat]
  have hdisjoint : Disjoint ({.init, .seed, .next} : Set Instr) (Instr.seedArray '' Set.Iio (2 ^ 24)) := by
    simp [Set.disjoint_left]
  rw [wellFormed_eq_union, Set.ncard_union_eq hdisjoint (Set.toFinite _) ((Set.finite_Iio _).image _), hthree, hkeys]

/-! ### The assembler -/

/-- The transaction of a command that a word can carry, with its payload complete (R73). -/
def IsTransaction {v : Variant} (e : HostEvent v) : Prop :=
  ∃ (i : Instr) (payload : List (Word v)),
    e = transaction i payload ∧ i.WellFormed ∧ payload.length = payloadWords i

theorem isTransaction_of_mem_singleton {v : Variant} {i : Instr} {payload : List (Word v)} (hi : i.WellFormed)
    (hlen : payload.length = payloadWords i) : ∀ e ∈ [transaction i payload], IsTransaction e :=
  fun _ he => ⟨i, payload, List.mem_singleton.mp he, hi, hlen⟩

/-- A line of the assembler holds whole transactions, a key no longer than LEN can say (R11, R79). -/
theorem isTransaction_of_assembleTokens {v : Variant} {ts : List Token} {es : List (HostEvent v)}
    (h : assembleTokens v ts = some es) : ∀ e ∈ es, IsTransaction e := by
  revert h
  fun_cases assembleTokens v ts <;> intro h
  -- The cases are the lines of R79: none, INIT, NEXT, SEED, SEED_ARRAY with a key that fits; then what is refused.
  case case1 =>
    cases h
    exact List.forall_mem_nil _
  case case2 | case3 =>
    cases h
    exact isTransaction_of_mem_singleton rfl rfl
  case case4 cs =>
    obtain ⟨x, -, rfl⟩ := Option.map_eq_some_iff.mp h
    exact isTransaction_of_mem_singleton rfl rfl
  case case5 key _ hlen =>
    cases h
    exact isTransaction_of_mem_singleton (decide_eq_true hlen) rfl
  case case6 | case7 | case8 => cases h

theorem isTransaction_of_assembleLines {v : Variant} {lines : List (List Char)} {es : List (HostEvent v)}
    (h : assembleLines v lines = some es) : ∀ e ∈ es, IsTransaction e := by
  induction lines generalizing es with
  | nil =>
    cases h
    exact List.forall_mem_nil _
  | cons line rest ih =>
    rw [assembleLines] at h
    split at h
    · next first more hline hrest =>
      cases h
      obtain ⟨ts, -, hts⟩ := Option.bind_eq_some_iff.mp hline
      exact fun e he => (List.mem_append.mp he).elim (isTransaction_of_assembleTokens hts e) (ih hrest e)
    · cases h

/-! ### The obligations -/

/-- Settles O6: the word has the command's fields. -/
theorem decodeOfEncode : Obligations.DecodeOfEncode := by
  unfold Obligations.DecodeOfEncode
  exact fun i hi => decode_encode hi

/-- Settles O7: the word that decodes has the command's fields, and is put together of them. -/
theorem encodeOfDecode : Obligations.EncodeOfDecode := by
  unfold Obligations.EncodeOfDecode
  intro w i h
  exact ⟨(decode_eq_ok_iff.mp h).1, encode_of_decode h⟩

/-- Settles O8: legality by the fields, and one legal word for each well-formed command. -/
theorem legalWordsExactly : Obligations.LegalWordsExactly := by
  unfold Obligations.LegalWordsExactly
  refine ⟨legal_iff_fields, ?_⟩
  rw [legalWords_eq_image_encode, encode_injOn.ncard_image, ncard_wellFormed]

/-- Settles O5: each word is decoded. -/
theorem commandWordsDecode : Obligations.CommandWordsDecode := by
  unfold Obligations.CommandWordsDecode
  decide

/-- Settles O9, status by status. -/
theorem statusCodes : Obligations.StatusCodes := by
  unfold Obligations.StatusCodes
  refine ⟨rfl, rfl, fun c => ?_⟩
  cases c <;> decide

/-- Settles O48: the assembler writes whole transactions of well-formed commands, whose words decode back. -/
theorem assembledCommandsAreDutiful : Obligations.AssembledCommandsAreDutiful := by
  unfold Obligations.AssembledCommandsAreDutiful
  intro v lines es h e he
  obtain ⟨i, payload, rfl, hi, hlen⟩ := isTransaction_of_assembleLines h e he
  exact ⟨i, payload, rfl, decode_encode hi, hlen⟩

/-- Settles O49, on either side of 2^W. -/
theorem assemblerRange : Obligations.AssemblerRange := by
  unfold Obligations.AssemblerRange
  intro v n
  refine ⟨fun hlt => ⟨BitVec.ofNat v.w n, if_pos hlt, ?_⟩, fun hge => if_neg (Nat.not_lt.mpr hge)⟩
  rw [BitVec.toNat_ofNat, Nat.mod_eq_of_lt hlt]

end Sys2Proof.Machine
end

section
/-! Proofs for the steps of spec/20_memory.md and spec/60_exceptions.md: which command a step runs, when it stops, and
that it acts on the instance of its port alone (R3, R56). The last rests on `hwStep_serves`: what a step of the hardware
makes of its instance it makes of that instance in every system. -/

namespace Sys2Proof.Machine

/-! ### Where a command stops -/

/-- Without a current instance there is no block to run a command (log entry 8). -/
theorem exec_noSuchPort {i : Instr} {s : State} (hc : s.current = none) : exec i s = .refused .noSuchPort := by
  rw [exec_eq_runCommand, runCommand, hc]

/-- A payload of another length is no host's move (R172; log entry 7). -/
theorem exec_payloadCount {i : Instr} {s : State} {I : Instance} (hc : s.current = some I)
    (hd : I.block.din.length ≠ payloadWords i) : exec i s = .refused .payloadCount := by
  simp only [exec_eq_runCommand, runCommand, hc, if_neg hd]

theorem exec_ne_fault (i : Instr) (s : State) (f : Fault) : exec i s ≠ .fault f := by
  rw [exec_eq_runCommand]
  rcases runCommand_cases (payloadWords i) (effectOf i) s with ⟨v, b, -, -, he⟩ | ⟨-, he⟩ | ⟨-, he⟩
  all_goals
    rw [he]
    exact fun h => nomatch h

/-- A step that faults has met an illegal word (R160, R161). -/
theorem step_fault {s : State} {f : Fault} (h : step s = .fault f) :
    ∃ w after x, f = .illegalCommand w after ∧ decode w = .error x := by
  rcases step_situations s with
    hsch | ⟨p, rest, hsch, hp | ⟨v, b, hp, hh | ⟨e, more, hh, he | ⟨w, payload, rfl, ⟨i, hi⟩ | ⟨x, hx⟩⟩⟩⟩⟩
  · cases (step_idle hsch).symm.trans h
  · cases (step_noPort hsch hp).symm.trans h
  · cases (step_quiet hsch hp hh).symm.trans h
  · cases (step_reset hsch hp hh he).symm.trans h
  · exact absurd ((step_command hsch hp hh hi).symm.trans h) (exec_ne_fault i _ f)
  · cases (step_illegal hsch hp hh hx).symm.trans h
    exact ⟨w, _, x, rfl, hx⟩

/-! ### One instance at a time -/

/-- A step of the hardware at the port of instance `I` makes `J` of it, in whatever system it stands. -/
def Serves (I J : Instance) : Prop :=
  ∀ {s : State} {p : Nat} {rest : List Nat}, s.schedule = p :: rest → s.insts[p]? = some I →
    hwStep s = .next { insts := s.insts.set p J, port := p, schedule := rest }

/-- A host with nothing to do leaves its instance (R171). -/
theorem serves_quiet {v : Variant} {b : Block v} (hh : b.host = []) : Serves ⟨v, b⟩ ⟨v, b⟩ := by
  intro s p rest hsch hp
  obtain ⟨hlt, hget⟩ := List.getElem?_eq_some_iff.mp hp
  rw [hwStep_of_next (step_quiet hsch hp hh), ← hget, List.set_getElem_self]

/-- A step of the hardware that completes serves the instance of its port (R3, R56). -/
theorem hwStep_serves {s t : State} {p : Nat} {rest : List Nat} (hsch : s.schedule = p :: rest)
    (h : hwStep s = .next t) : ∃ I J, s.insts[p]? = some I ∧ Serves I J := by
  rcases step_situations s with hsch' | ⟨p', rest', hsch', hsit⟩
  · cases hsch.symm.trans hsch'
  cases hsch.symm.trans hsch'
  rcases hsit with hp | ⟨v, b, hp, hh | ⟨e, more, hh, he | ⟨w, payload, rfl, ⟨i, hi⟩ | ⟨x, hx⟩⟩⟩⟩
  · cases (hwStep_of_refused (step_noPort hsch hp)).symm.trans h
  · exact ⟨_, _, hp, serves_quiet hh⟩
  · exact ⟨_, _, hp, fun hs hp => hwStep_of_next (step_reset hs hp hh he)⟩
  · by_cases hd : payload.length = payloadWords i
    · exact ⟨_, _, hp, fun hs hp => hwStep_of_next (step_command_complete hs hp hh hi hd)⟩
    · cases (hwStep_of_refused (step_command_payloadCount hsch hp hh hi hd)).symm.trans h
  · exact ⟨_, _, hp, fun hs hp => hwStep_of_illegal (step_illegal hs hp hh hx)⟩

/-- Two steps of the hardware that serve two different ports. -/
theorem hwRun_two_serves {s : State} {p q : Nat} {rest : List Nat} {I J I' J' : Instance} (hpq : p ≠ q)
    (hsch : s.schedule = p :: q :: rest) (hp : s.insts[p]? = some I) (hIJ : Serves I J) (hq : s.insts[q]? = some I')
    (hIJ' : Serves I' J') :
    hwRun 2 s = .next { insts := (s.insts.set p J).set q J', port := q, schedule := rest } := by
  have hq' : (s.insts.set p J)[q]? = some I' := (List.getElem?_set_ne hpq).trans hq
  rw [hwRun_succ_of_next (hIJ hsch hp), hwRun_succ_of_next (hIJ' rfl hq'), hwRun]

/-- If two steps at two different ports complete, each serves the instance that stood at its port at first. -/
theorem serves_of_hwRun_two {s t : State} {p q : Nat} {rest : List Nat} (hpq : p ≠ q)
    (hsch : s.schedule = p :: q :: rest) (h : hwRun 2 s = .next t) :
    ∃ I J I' J', s.insts[p]? = some I ∧ Serves I J ∧ s.insts[q]? = some I' ∧ Serves I' J' := by
  rw [hwRun] at h
  split at h
  next u hfirst =>
    obtain ⟨I, J, hp, hIJ⟩ := hwStep_serves hsch hfirst
    cases (hIJ hsch hp).symm.trans hfirst
    rw [hwRun] at h
    split at h
    next u' hsecond =>
      obtain ⟨I', J', hq, hIJ'⟩ := hwStep_serves rfl hsecond
      exact ⟨I, J, I', J', hp, hIJ, (List.getElem?_set_ne hpq).symm.trans hq, hIJ'⟩
    next => cases h
    next => cases h
  next => cases h
  next => cases h

/-! ### The obligations -/

/-- Settles O13: a command completes or is refused, and of a step's situations only the illegal word faults. -/
theorem onlyIllegalWordsFault : Obligations.OnlyIllegalWordsFault := by
  unfold Obligations.OnlyIllegalWordsFault
  exact ⟨exec_ne_fault, fun s f h => step_fault h⟩

/-- Settles O45: the step serves the instance of its port, and the list changes there alone. -/
theorem stepTouchesOneInstance : Obligations.StepTouchesOneInstance := by
  unfold Obligations.StepTouchesOneInstance
  intro s t p rest hsch h
  obtain ⟨I, J, hp, hIJ⟩ := hwStep_serves hsch h
  cases (hIJ hsch hp).symm.trans h
  exact ⟨rfl, List.length_set, fun q hq => List.getElem?_set_ne hq.symm⟩

/-- Settles O46: each step serves its own instance in either order, and the two changes of the list commute. -/
theorem portsCommute : Obligations.PortsCommute := by
  unfold Obligations.PortsCommute
  intro insts port p q rest t hpq h
  obtain ⟨I, J, I', J', hp, hIJ, hq, hIJ'⟩ := serves_of_hwRun_two hpq rfl h
  cases (hwRun_two_serves hpq rfl hp hIJ hq hIJ').symm.trans h
  exact ⟨_, hwRun_two_serves hpq.symm rfl hq hIJ' hp hIJ, List.set_comm _ _ hpq.symm, rfl⟩

/-- Settles O10: the step serves the port's host, which sends the word. -/
theorem stepRunsDecodedCommand : Obligations.StepRunsDecodedCommand := by
  unfold Obligations.StepRunsDecodedCommand
  intro s p rest v b w payload more i hsch hp hh hi
  exact step_command hsch hp hh hi

/-- Settles O14: the two situations of a step in which no host acts. -/
theorem idleHoldsState : Obligations.IdleHoldsState := by
  unfold Obligations.IdleHoldsState
  exact ⟨fun s hsch => step_idle hsch, fun s p rest I hsch hp hh => step_quiet hsch hp hh⟩

/-- Settles O15, for a step and for a command. -/
theorem unknownPortRefused : Obligations.UnknownPortRefused := by
  unfold Obligations.UnknownPortRefused
  exact ⟨fun s p rest hsch hp => step_noPort hsch hp, fun i s hc => exec_noSuchPort hc⟩

/-- Settles O16: the length is checked before anything else is done. -/
theorem wrongPayloadRefused : Obligations.WrongPayloadRefused := by
  unfold Obligations.WrongPayloadRefused
  exact fun i s I hc hd => exec_payloadCount hc hd

end Sys2Proof.Machine
end

section
/-! Proofs for spec/70_reset_and_hazards.md: what reset leaves, in a fresh system (R169, R180) and in a running one
(R181). -/

namespace Sys2Proof.Machine

/-! ### Fresh instances -/

theorem fresh_inv (v : Variant) (source : Nat) : (Instance.fresh v source).Inv :=
  ⟨.inr (cursorIndex_reset v source 0), rfl⟩

/-- Every instance of a fresh system is a fresh one. -/
theorem system_getElem?_eq_fresh (vs : List Variant) (k : Nat) :
    (State.system vs).insts[k]? = vs[k]?.map (Instance.fresh · k) := by
  rw [State.system, freshInstances_getElem?, Nat.zero_add]

theorem system_inv (vs : List Variant) : (State.system vs).Inv := by
  intro I hI
  obtain ⟨k, hk⟩ := List.mem_iff_getElem?.mp hI
  rw [system_getElem?_eq_fresh, Option.map_eq_some_iff] at hk
  obtain ⟨v, -, rfl⟩ := hk
  exact fresh_inv v k

/-! ### Reset events -/

theorem resets_iff {v : Variant} {e : HostEvent v} :
    resets e = true ↔ e = .reset ∨ e = .powerCycle ∨ ∃ w payload, e = .cutCommand w payload := by
  cases e <;> simp [resets]

/-! ### The obligations -/

/-- Settles O17: instance k of a fresh system is fresh, with the sentinel in its cursor. -/
theorem resetCursors : Obligations.ResetCursors := by
  unfold Obligations.ResetCursors
  refine ⟨fun vs k v hk => ⟨(Instance.fresh v k).block, ?_, cursorIndex_reset v k 0, rfl, rfl⟩, rfl⟩
  rw [system_getElem?_eq_fresh, hk]
  rfl

/-- Settles O18: all three events are served by `takeReset`, with the words of the next draw. -/
theorem resetEventResets : Obligations.ResetEventResets := by
  unfold Obligations.ResetEventResets
  intro s p rest v b e more hsch hp hh he
  exact ⟨Mt.reset v b.source (b.draws + 1), step_reset hsch hp hh (resets_iff.mpr he)⟩

/-- Settles O41: every instance of a fresh system is fresh, and State.reset is such a system. -/
theorem invariantAtReset : Obligations.InvariantAtReset := by
  unfold Obligations.InvariantAtReset
  exact ⟨system_inv _, system_inv⟩

end Sys2Proof.Machine
end

section
/-! Proofs for spec/40_seeding.md: the words of ScalarInit (R100), the two passes of ArrayInit (R103, R104) with the
index they share, what INIT, SEED and SEED_ARRAY leave (R101, R102, R106, R107), and what every command leaves alone. -/

namespace Sys2Proof.Machine

/-! ### A command that completes, by its payload -/

section completes

variable {i : Instr} {s : State} {v : Variant} {b : Block v}

/-- With its payload complete a command takes its effect and responds OK (R73, R78). -/
theorem exec_completes {payload : List (Word v)} (hc : s.current = some ⟨v, b⟩) (hd : b.din = payload)
    (hlen : payload.length = payloadWords i) :
    exec i s = .next (s.setCurrent
      ⟨v, { b with
            gen := (effectOf i v payload b.gen).1
            din := []
            received := b.received ++ [{ status := .ok, dout := (effectOf i v payload b.gen).2 }] }⟩) := by
  subst hd
  exact exec_eq hc hlen

/-- A command without payload leaves DIN as empty as it was. -/
theorem exec_completes_noPayload (hc : s.current = some ⟨v, b⟩) (hd : b.din = []) (hlen : payloadWords i = 0) :
    exec i s = .next (s.setCurrent
      ⟨v, { b with
            gen := (effectOf i v [] b.gen).1
            received := b.received ++ [{ status := .ok, dout := (effectOf i v [] b.gen).2 }] }⟩) := by
  rw [exec_completes hc hd hlen.symm, hd]

end completes

/-- NEXT alone answers a word (R78). -/
theorem effectOf_dout {i : Instr} (hi : i ≠ .next) {v : Variant} (payload : List (Word v)) (g : Gen v) :
    (effectOf i v payload g).2 = 0 := by
  cases i with
  | init | seed | seedArray => rfl
  | next => exact absurd rfl hi

/-- INIT, SEED and SEED_ARRAY do again what they did (R55): INIT writes the cursor it wrote, and a seeding forgets what
it finds. -/
theorem effectOf_again {i : Instr} (hi : i ≠ .next) {v : Variant} (payload : List (Word v)) (g : Gen v) :
    effectOf i v payload (effectOf i v payload g).1 = effectOf i v payload g := by
  cases i with
  | init => rfl
  | seed => exact effectOf_seeding_forgets (.inl rfl) payload _ g
  | seedArray len => exact effectOf_seeding_forgets (.inr ⟨len, rfl⟩) payload _ g
  | next => exact absurd rfl hi

/-! ### ScalarInit -/

theorem scalarWords_scalarInit {v : Variant} (seed : Word v) (mt : Mt v) : ScalarWords seed (scalarInit seed mt) := by
  refine ⟨mtRead_scalarInit seed mt (n_pos v), fun i h1 hi => ?_⟩
  obtain ⟨i, rfl⟩ := Nat.exists_eq_add_of_le' h1
  rw [Nat.add_sub_cancel, mtRead_scalarInit seed mt hi, mtRead_scalarInit seed mt (Nat.lt_of_succ_lt hi)]
  rfl

/-! ### One iteration of a pass -/

theorem pass1Step_i {v : Variant} (key : List (Word v)) (x : Mix v) :
    (pass1Step key x).i = if x.i + 1 ≥ v.n then 1 else x.i + 1 := by
  rw [pass1Step, advanceJ_i, advanceI_i]

theorem pass1Step_j {v : Variant} (key : List (Word v)) (x : Mix v) :
    (pass1Step key x).j = if x.j + 1 ≥ key.length then 0 else x.j + 1 := by
  rw [pass1Step, advanceJ_j, advanceI_j]

theorem pass2Step_i {v : Variant} (x : Mix v) : (pass2Step x).i = if x.i + 1 ≥ v.n then 1 else x.i + 1 := by
  rw [pass2Step, advanceI_i]

theorem pass1Iteration_pass1Step {v : Variant} (key : List (Word v)) {x : Mix v} (hi : x.i < v.n) :
    Pass1Iteration key x (pass1Step key x) := by
  refine ⟨pass1Step_i key x, pass1Step_j key x, fun a ha => ?_⟩
  rw [pass1Step, advanceJ_mt, mtRead_advanceI x _ hi ha]
  rfl

theorem pass2Iteration_pass2Step {v : Variant} {x : Mix v} (hi : x.i < v.n) : Pass2Iteration x (pass2Step x) :=
  ⟨pass2Step_i x, fun _ ha => mtRead_advanceI x _ hi ha⟩

/-! ### The index of both passes -/

/-- An index that runs from 1 to N-1 and wraps to 1 counts modulo N-1 (R103, R104). -/
theorem iterate_i {v : Variant} {f : Mix v → Mix v} (hf : ∀ x, (f x).i = if x.i + 1 ≥ v.n then 1 else x.i + 1)
    {x : Mix v} {a : Nat} (hx : x.i = 1 + a % (v.n - 1)) (k : Nat) : (f^[k] x).i = 1 + (a + k) % (v.n - 1) := by
  induction k with
  | zero => exact hx
  | succ k ih =>
    have hlt : (a + k) % (v.n - 1) < v.n - 1 := Nat.mod_lt _ (by cases v <;> decide)
    rw [Function.iterate_succ_apply', hf, ih, ← Nat.add_assoc]
    split
    case isTrue => rw [(succ_div_mod_of_eq (by omega)).2]
    case isFalse => rw [(succ_div_mod_of_lt (by omega)).2, Nat.add_assoc]

theorem one_add_mod_lt_n (v : Variant) (a : Nat) : 1 + a % (v.n - 1) < v.n := by
  have hlt : a % (v.n - 1) < v.n - 1 := Nat.mod_lt _ (by cases v <;> decide)
  omega

/-- Where pass 1 begins (R103). -/
def passStart {v : Variant} (mt : Mt v) : Mix v := { mt := scalarInit v.arrayInitSeed mt, i := 1, j := 0 }

theorem arrayPass1_eq_iterate {v : Variant} (key : List (Word v)) (mt : Mt v) :
    arrayPass1 key mt = (pass1Step key)^[max v.n key.length] (passStart mt) := forRange_iterate ..

theorem arrayPass2_eq_iterate {v : Variant} (x : Mix v) : arrayPass2 x = pass2Step^[v.n - 1] x := forRange_iterate ..

theorem pass1_i {v : Variant} (key : List (Word v)) (mt : Mt v) (k : Nat) :
    ((pass1Step key)^[k] (passStart mt)).i = 1 + k % (v.n - 1) := by
  have h0 : (passStart mt).i = 1 + 0 % (v.n - 1) := by rw [Nat.zero_mod]; rfl
  rw [iterate_i (pass1Step_i key) h0, Nat.zero_add]

theorem arrayPass1_i {v : Variant} (key : List (Word v)) (mt : Mt v) :
    (arrayPass1 key mt).i = 1 + max v.n key.length % (v.n - 1) := by
  rw [arrayPass1_eq_iterate, pass1_i]

theorem pass2_i {v : Variant} (key : List (Word v)) (mt : Mt v) (k : Nat) :
    (pass2Step^[k] (arrayPass1 key mt)).i = 1 + (max v.n key.length + k) % (v.n - 1) :=
  iterate_i pass2Step_i (arrayPass1_i key mt) k

theorem pass1Iteration_iterate {v : Variant} (key : List (Word v)) (mt : Mt v) (k : Nat) :
    Pass1Iteration key ((pass1Step key)^[k] (passStart mt)) ((pass1Step key)^[k + 1] (passStart mt)) := by
  rw [Function.iterate_succ_apply']
  exact pass1Iteration_pass1Step key (pass1_i key mt k ▸ one_add_mod_lt_n v k)

theorem pass2Iteration_iterate {v : Variant} (key : List (Word v)) (mt : Mt v) (k : Nat) :
    Pass2Iteration (pass2Step^[k] (arrayPass1 key mt)) (pass2Step^[k + 1] (arrayPass1 key mt)) := by
  rw [Function.iterate_succ_apply']
  exact pass2Iteration_pass2Step (pass2_i key mt k ▸ one_add_mod_lt_n v _)

/-! ### The obligations -/

/-- Settles O21: the passes are iterated steps, each one that its rule describes since i stays below N. -/
theorem seedArrayResult : Obligations.SeedArrayResult := by
  unfold Obligations.SeedArrayResult
  intro s v b key hc hd hkey
  refine ⟨fun k => (pass1Step key)^[k] (passStart b.gen.mt), fun k => pass2Step^[k] (arrayPass1 key b.gen.mt),
    arrayInit key b.gen.mt, scalarWords_scalarInit _ _, rfl, rfl,
    fun k _ => pass1Iteration_iterate key _ k, arrayPass1_eq_iterate key b.gen.mt,
    fun k _ => pass2Iteration_iterate key _ k, (mtRead_arrayInit_zero key _).trans (topBit_eq v), fun a ha _ => ?_, ?_⟩
  · rw [arrayInit, mtRead_mtWrite_ne _ (Nat.ne_of_lt ha), arrayPass2_eq_iterate]
  · rw [exec_completes hc hd rfl, effectOf, seedArrayGen_cons hkey]
    rfl

/-- Settles O20: SEED leaves the vector of ScalarInit. -/
theorem seedResult : Obligations.SeedResult := by
  unfold Obligations.SeedResult
  intro s v b seed hc hd
  exact ⟨scalarInit seed b.gen.mt, scalarWords_scalarInit seed _, exec_completes hc hd rfl⟩

/-- Settles O22: the empty key's effect is that of the seed 0. -/
theorem emptyKeyResult : Obligations.EmptyKeyResult := by
  unfold Obligations.EmptyKeyResult
  intro s v b hc hd
  have hempty := exec_completes_noPayload (i := .seedArray 0) hc hd rfl
  refine ⟨scalarInit 0 b.gen.mt, scalarWords_scalarInit 0 _, hempty, ?_⟩
  rw [hempty, exec_completes (current_setCurrent_of_current hc) rfl rfl, setCurrent_setCurrent, hd]
  rfl

/-- Settles O19: INIT's effect writes the cursor alone. -/
theorem initResult : Obligations.InitResult := by
  unfold Obligations.InitResult
  intro s v b hc hd
  exact exec_completes_noPayload hc hd rfl

/-- Settles O25: the instance of the port is replaced, by one that has taken the effect and one response more. -/
theorem commandFrame : Obligations.CommandFrame := by
  unfold Obligations.CommandFrame
  intro i s t h
  obtain ⟨v, b, hc, -, rfl⟩ := exec_next h
  exact ⟨rfl, rfl, List.length_set, fun q hq => setCurrent_other s _ hq, v, b, _, (effectOf i v b.din b.gen).2, hc,
    current_setCurrent_of_current hc, rfl, rfl, rfl, rfl, rfl, fun hi => effectOf_dout hi b.din b.gen⟩

/-- Settles O26: neither effect writes a word. -/
theorem vectorFrame : Obligations.VectorFrame := by
  unfold Obligations.VectorFrame
  intro i s t v b c hc ht h hi
  obtain ⟨v', b', hc', -, rfl⟩ := exec_next h
  cases hc.symm.trans hc'
  cases (current_setCurrent_of_current hc).symm.trans ht
  rcases hi with rfl | ⟨rfl, hlt⟩
  · rfl
  · change (draw b.gen).1.mt = b.gen.mt
    rw [draw_of_lt hlt, setCursor_mt]

/-- Settles O29: the payload is complete again, and the effect is the same again. -/
theorem seedingTwiceIsOnce : Obligations.SeedingTwiceIsOnce := by
  unfold Obligations.SeedingTwiceIsOnce
  intro i s t v b c hi hc h ht
  obtain ⟨v', b', hc', hlen, rfl⟩ := exec_next h
  cases hc.symm.trans hc'
  have hgen : c.gen = (effectOf i v b.din b.gen).1 := by
    cases (current_setCurrent_of_current hc).symm.trans ht
    rfl
  have hagain := current_setCurrent_of_current (J := ⟨v, { c with din := b.din }⟩) ht
  refine ⟨_, _, exec_completes hagain rfl hlen, current_setCurrent_of_current hagain, ?_⟩
  calc (effectOf i v b.din c.gen).1
    _ = (effectOf i v b.din b.gen).1 := by rw [hgen, effectOf_again hi]
    _ = c.gen := hgen.symm

/-- Settles O30: the index of either pass counts modulo N-1, and N mod (N-1) is 1. -/
theorem arrayIndexBookkeeping : Obligations.ArrayIndexBookkeeping := by
  unfold Obligations.ArrayIndexBookkeeping
  intro v key mt
  refine ⟨arrayPass1_i key mt, fun hle => ?_, fun hlt => ?_, ?_⟩
  · have hone : v.n % (v.n - 1) = 1 := by cases v <;> rfl
    rw [arrayPass1_i, max_eq_left hle, hone]
  · rw [arrayPass1_i, max_eq_right hlt.le]
  · rw [arrayPass2_eq_iterate, pass2_i, Nat.add_mod_right, arrayPass1_i]

end Sys2Proof.Machine
end

section
/-! Proofs for spec/41_twist.md and spec/42_next_and_tempering.md: the all-zero vector (R134), what a draw and NEXT
leave and answer (R135, R142), the lazy default seed (R143), and a run of NEXT commands. -/

namespace Sys2Proof.Machine

/-! ### The all-zero vector -/

theorem mtRead_zeros {v : Variant} (i : Nat) : mtRead (Vector.replicate v.n (0 : Word v)) i = 0 := by
  by_cases hi : i < v.n
  · rw [mtRead_lt _ hi, Vector.getElem_replicate]
  · simp [mtRead, Vector.getD, hi]

theorem twistWord_zero {v : Variant} : twistWord (0 : Word v) 0 0 = 0 := by cases v <;> decide

/-- A step of Twist finds zeros alone, and writes the zero that stood there. -/
theorem twistStep_zeros {v : Variant} (k : Nat) :
    twistStep k (Vector.replicate v.n (0 : Word v)) = Vector.replicate v.n 0 := by
  refine mt_ext fun j _ => ?_
  rw [twistStep, mtRead_mtWrite]
  simp only [mtRead_zeros, twistWord_zero, ite_self]

theorem twistMt_zeros (v : Variant) : twistMt (Vector.replicate v.n (0 : Word v)) = Vector.replicate v.n 0 :=
  forRange_induct (fun _ mt => mt = Vector.replicate v.n (0 : Word v)) rfl fun k _ _ hmt =>
    (congrArg (twistStep (0 + k)) hmt).trans (twistStep_zeros (0 + k))

/-- ScalarInit leaves 1 in word 1 when it leaves 0 in word 0 (R100). -/
theorem scalarInit_ne_zeros {v : Variant} (seed : Word v) (mt : Mt v) :
    scalarInit seed mt ≠ Vector.replicate v.n 0 := by
  intro h
  have hword (i : Nat) (hi : i < v.n) : scalarWord seed i = 0 := by
    rw [← mtRead_scalarInit seed mt hi, h, mtRead_zeros]
  have hfirst : seed = 0 := hword 0 (n_pos v)
  have hsecond : scalarWord seed 1 = 0 := hword 1 (by cases v <;> decide)
  rw [hfirst] at hsecond
  cases v <;> exact absurd hsecond (by decide)

theorem seedArrayGen_mt_ne_zeros {v : Variant} (key : List (Word v)) (g : Gen v) :
    (seedArrayGen key g).mt ≠ Vector.replicate v.n 0 := by
  by_cases hkey : key = []
  · rw [hkey, seedArrayGen_nil]
    exact scalarInit_ne_zeros 0 g.mt
  · intro h
    have htop : v.topBit = 0 := by
      rw [← mtRead_arrayInit_zero key g.mt, ← mtRead_zeros 0, ← h, seedArrayGen_cons hkey, setCursor_mt]
    cases v <;> exact absurd htop (by decide)

/-! ### Draws -/

/-- The lazy default seed: at the sentinel a draw is a draw after SEED 5489 (R143). -/
theorem draw_seedGen_defaultSeed {v : Variant} {g : Gen v} (hs : cursorIndex g = v.sentinel) :
    draw (seedGen v.defaultSeed g) = draw g := by
  have hc : cursorIndex (seedGen v.defaultSeed g) = v.n := cursorIndex_setCursor _ (n_lt v)
  rw [draw_of_eq_n hc, draw_of_sentinel hs]
  rfl

/-- At N or above a draw twists, the words of the default seed if the cursor is the sentinel, or else the old ones. -/
theorem draw_twists {v : Variant} {g : Gen v} (h : v.n ≤ cursorIndex g) :
    ∃ old : Mt v, (if cursorIndex g = v.sentinel then ScalarWords v.defaultSeed old else old = g.mt) ∧
      draw g = (setCursor { g with mt := twistMt old } 1, temper (mtRead (twistMt old) 0)) := by
  by_cases hs : cursorIndex g = v.sentinel
  · exact ⟨_, by rw [if_pos hs]; exact scalarWords_scalarInit v.defaultSeed g.mt, draw_of_sentinel hs⟩
  · exact ⟨g.mt, by rw [if_neg hs], draw_of_ge h hs⟩

theorem cursor_add_one {v : Variant} (g : Gen v) : (setCursor g (cursorIndex g + 1)).cursor = g.cursor + 1 := by
  rw [setCursor_cursor, cursorIndex, BitVec.ofNat_add, BitVec.ofNat_toNat, BitVec.setWidth_eq]
  rfl

/-! ### A run of NEXT commands -/

theorem decode_next : decode 0x00000004 = .ok .next := by decide

section run

variable {s : State} {p : Nat} {rest : List Nat} {v : Variant} {b : Block v} {more : List (HostEvent v)}

/-- A scheduled NEXT takes one draw. -/
theorem step_next (hsch : s.schedule = p :: rest) (hp : s.insts[p]? = some ⟨v, b⟩)
    (hh : b.host = .command 0x00000004 [] :: more) :
    step s = .next (State.setCurrent { s with port := p, schedule := rest }
      ⟨v, respond { b with gen := (draw b.gen).1, host := more } .ok (draw b.gen).2⟩) :=
  step_command_complete hsch hp hh decode_next rfl

/-- Of NEXT commands one after the other at one port, each takes the next draw. -/
theorem run_nexts (n : Nat) (hsch : s.schedule = List.replicate (n + 1) p ++ rest) (hp : s.insts[p]? = some ⟨v, b⟩)
    (hh : b.host = List.replicate (n + 1) (.command 0x00000004 []) ++ more) :
    Host.Core.run Sys2Proof.core (n + 1) s = .next
      { insts := s.insts.set p
          ⟨v, { b with
                gen := (drawMany (n + 1) b.gen).2
                din := []
                host := more
                received := b.received ++ (drawMany (n + 1) b.gen).1.map (fun w => { status := .ok, dout := w }) }⟩
        port := p
        schedule := rest } := by
  induction n generalizing s b with
  | zero =>
    exact run_succ_of_next (M := Sys2Proof.core) (step_next hsch hp hh) 0
  | succ n ih =>
    have hsch' : s.schedule = p :: (List.replicate (n + 1) p ++ rest) := hsch
    have hh' : b.host = .command 0x00000004 [] :: (List.replicate (n + 1) (.command 0x00000004 []) ++ more) := hh
    have hfirst := run_succ_of_next (M := Sys2Proof.core) (step_next hsch' hp hh') (n + 1)
    refine hfirst.trans ((ih rfl (current_served hp _) rfl).trans ?_)
    simp [State.setCurrent, drawMany_succ (n + 1) b.gen]

end run

/-! ### The obligations -/

/-- Settles O35: Twist keeps the zeros, the seedings leave a nonzero word 0 or 1, and old mt[0] counts by its upper part
alone (`twistReadsUpperPartOfFirstWord`). -/
theorem allZeroVector : Obligations.AllZeroVector := by
  unfold Obligations.AllZeroVector
  refine ⟨twistMt_zeros, fun v seed g => scalarInit_ne_zeros seed g.mt, fun v key g => seedArrayGen_mt_ne_zeros key g,
    fun v x => ?_⟩
  obtain ⟨hreads, -⟩ := twistReadsUpperPartOfFirstWord
  have hupper : (x &&& v.lowerMask) &&& v.upperMask = mtRead (Vector.replicate v.n (0 : Word v)) 0 &&& v.upperMask := by
    rw [mtRead_zeros, BitVec.and_assoc, BitVec.and_comm v.lowerMask, upperMask_and_lowerMask]
    simp
  rw [hreads v _ _ hupper, twistMt_zeros]

/-- Settles O23, by the cases of the cursor. -/
theorem nextResult : Obligations.NextResult := by
  unfold Obligations.NextResult
  intro s v b hc hd
  have hnext := exec_completes_noPayload (i := .next) hc hd rfl
  rw [effectOf] at hnext
  split
  case isTrue hlt =>
    rw [hnext, draw_of_lt hlt, ← cursor_add_one]
    rfl
  case isFalse hge =>
    obtain ⟨old, hold, hdraw⟩ := draw_twists (Nat.le_of_not_lt hge)
    refine ⟨old, hold, ?_⟩
    rw [hnext, hdraw]
    rfl

/-- Settles O24: SEED 5489 leaves a state whose next draw is the lazy one. -/
theorem lazyDefaultSeed : Obligations.LazyDefaultSeed := by
  unfold Obligations.LazyDefaultSeed
  intro s v b hc hd hs
  refine ⟨(draw b.gen).1, (draw b.gen).2, _, exec_completes_noPayload hc hd rfl,
    exec_completes (current_setCurrent_of_current hc) rfl rfl, ?_⟩
  rw [setCurrent_setCurrent, exec_completes_noPayload (current_setCurrent_of_current hc) rfl rfl, setCurrent_setCurrent]
  have hdraw : effectOf .next v [] (effectOf .seed v [5489] b.gen).1 = draw b.gen :=
    draw_seedGen_defaultSeed hs
  simp only [hdraw, hd, List.append_assoc]
  rfl

/-- Settles O40, by the cases of the cursor. -/
theorem drawCadence : Obligations.DrawCadence := by
  unfold Obligations.DrawCadence
  intro v g
  have hn := n_lt v
  refine ⟨fun hlt => ?_, fun hge => ?_⟩
  · rw [draw_of_lt hlt]
    exact ⟨cursorIndex_setCursor g (Nat.lt_of_le_of_lt hlt hn), rfl⟩
  · obtain ⟨old, hold, hdraw⟩ := draw_twists hge
    rw [hdraw]
    exact ⟨cursorIndex_setCursor _ (Nat.lt_of_le_of_lt (n_pos v) hn), old, rfl,
      fun hne => (if_neg (c := cursorIndex g = v.sentinel) hne).mp hold⟩

/-- Settles O50: `run_nexts` for any number of commands. -/
theorem nextRunAnswersDraws : Obligations.NextRunAnswersDraws := by
  unfold Obligations.NextRunAnswersDraws
  intro s p n rest v b more hsch hp hh
  exact run_nexts n hsch hp hh

/-- Settles O32: the vector is the loop's, and 0 is the value written last to the cursor. -/
theorem twistCursor : Obligations.TwistCursor := by
  unfold Obligations.TwistCursor
  exact fun v g => ⟨twist_mt g, cursorIndex_twist g⟩

end Sys2Proof.Machine
end
